-- ==== Sys2Proof/Word.lean ====
section
/-! DEFINITION. The word types of XXH-CORE (spec/00_scope.md R8): bytes, `u32` and `u64`, with wrapping arithmetic. -/

namespace Sys2Proof

/-- `u8`: one byte of a byte space (R8). -/
abbrev Byte := BitVec 8

/-- `u32`: a word of the 32-bit engine; its arithmetic wraps modulo 2^32 (R8, R9). -/
abbrev U32 := BitVec 32

/-- `u64`: a word of the 64-bit and 128-bit engines; its arithmetic wraps modulo 2^64 (R8, R9). -/
abbrev U64 := BitVec 64

end Sys2Proof
end

