-- ==== Sys2Proof/Syntax.lean ====
section
/-! DEFINITION. The commands of XXH-CORE, one constructor per row of spec/opcode_table.json
(spec/30_encoding.md R67). A constructor holds the fields of the command word that its command reads
(R66): the rotate amount `R` or the secret offset `K`, as the number it stands for (R64, R65). The other operands
(SEED, A, B, DATA) travel beside the command word and stand in the machine's state. -/

namespace Sys2Proof

/-- A command of XXH-CORE (R67). -/
inductive Instr where
  /-- HASH32, opcode 0x01 (R125). -/
  | hash32
  /-- HASH64, opcode 0x02 (R145). -/
  | hash64
  /-- HASH128, opcode 0x03 (R179). -/
  | hash128
  /-- H64_INIT, opcode 0x08 (R150). -/
  | h64Init
  /-- H64_UPDATE, opcode 0x09 (R151, R152). -/
  | h64Update
  /-- H64_FINAL, opcode 0x0A (R153, R154). -/
  | h64Final
  /-- ROTL32, opcode 0x10, with the rotate amount R (R90). -/
  | rotl32 (r : Nat)
  /-- ROTL64, opcode 0x11, with the rotate amount R (R91). -/
  | rotl64 (r : Nat)
  /-- BSWAP32, opcode 0x12 (R92). -/
  | bswap32
  /-- BSWAP64, opcode 0x13 (R93). -/
  | bswap64
  /-- AVAL64, opcode 0x14 (R94). -/
  | aval64
  /-- AVAL3, opcode 0x15 (R95). -/
  | aval3
  /-- RRMXMX, opcode 0x16 (R96). -/
  | rrmxmx
  /-- MUL128FOLD64, opcode 0x17 (R97). -/
  | mul128fold64
  /-- MIX16B, opcode 0x18, with the secret offset K (R98). -/
  | mix16b (k : Nat)
  /-- SECRET_RD32, opcode 0x19, with the secret offset K (R99). -/
  | secretRd32 (k : Nat)
  /-- SECRET_RD64, opcode 0x1A, with the secret offset K (R100). -/
  | secretRd64 (k : Nat)
deriving DecidableEq, Repr

end Sys2Proof
end

