-- ==== Sys2Proof/WellFormed.lean ====
section
/-! DEFINITION. Which commands a command word can carry: the rotate amount is a 6-bit number and the secret
offset an 8-bit number (spec/30_encoding.md R63 to R65). Every other command has no field to check. -/

namespace Sys2Proof

/-- The fields of the command fit the fields of the command word (R63). -/
def Instr.wellFormed : Instr → Bool
  | .hash32 => true
  | .hash64 => true
  | .hash128 => true
  | .h64Init => true
  | .h64Update => true
  | .h64Final => true
  | .rotl32 r => decide (r < 64)
  | .rotl64 r => decide (r < 64)
  | .bswap32 => true
  | .bswap64 => true
  | .aval64 => true
  | .aval3 => true
  | .rrmxmx => true
  | .mul128fold64 => true
  | .mix16b k => decide (k < 256)
  | .secretRd32 k => decide (k < 256)
  | .secretRd64 k => decide (k < 256)

end Sys2Proof
end

