-- ==== Sys2Proof/Decode.lean ====
section
/-! DEFINITION. Reading a 32-bit command word (spec/30_encoding.md R63 to R71): its four fields, the decoder,
total on every word, and after it the encoder. -/

namespace Sys2Proof

/-- `OPC = CMD[7:0]` (R63). -/
def opcOf (w : U32) : BitVec 8 := w.extractLsb' 0 8

/-- `R = CMD[13:8]` (R63, R64). -/
def rOf (w : U32) : BitVec 6 := w.extractLsb' 8 6

/-- `K = CMD[21:14]` (R63, R65). -/
def kOf (w : U32) : BitVec 8 := w.extractLsb' 14 8

/-- `RSV = CMD[31:22]`, which must be 0 (R63, R68). -/
def rsvOf (w : U32) : BitVec 10 := w.extractLsb' 22 10

/-- Why a command word is illegal. The block answers all three with STATUS ILLEGAL (R201). -/
inductive DecodeError where
  /-- `CMD[31:22]` is not zero (R68). -/
  | reservedBits
  /-- Opcode 0x04, kept for `hash3_64`, which no source defines (R69). -/
  | reservedForHash3
  /-- An opcode outside the map of R67 (R68). -/
  | reservedOpcode
deriving DecidableEq, Repr

/-- `decode(CMD)` of R70. Bits the command does not use are ignored (R71). -/
def decodeWord (w : U32) : Except DecodeError Instr :=
  if rsvOf w ≠ 0 then .error .reservedBits
  else
    match (opcOf w).toNat with
    | 0x01 => .ok .hash32
    | 0x02 => .ok .hash64
    | 0x03 => .ok .hash128
    | 0x04 => .error .reservedForHash3
    | 0x08 => .ok .h64Init
    | 0x09 => .ok .h64Update
    | 0x0A => .ok .h64Final
    | 0x10 => .ok (.rotl32 (rOf w).toNat)
    | 0x11 => .ok (.rotl64 (rOf w).toNat)
    | 0x12 => .ok .bswap32
    | 0x13 => .ok .bswap64
    | 0x14 => .ok .aval64
    | 0x15 => .ok .aval3
    | 0x16 => .ok .rrmxmx
    | 0x17 => .ok .mul128fold64
    | 0x18 => .ok (.mix16b (kOf w).toNat)
    | 0x19 => .ok (.secretRd32 (kOf w).toNat)
    | 0x1A => .ok (.secretRd64 (kOf w).toNat)
    | _ => .error .reservedOpcode

/-- The opcode of a command (R67). -/
def Instr.opcode : Instr → BitVec 8
  | .hash32 => 0x01
  | .hash64 => 0x02
  | .hash128 => 0x03
  | .h64Init => 0x08
  | .h64Update => 0x09
  | .h64Final => 0x0A
  | .rotl32 _ => 0x10
  | .rotl64 _ => 0x11
  | .bswap32 => 0x12
  | .bswap64 => 0x13
  | .aval64 => 0x14
  | .aval3 => 0x15
  | .rrmxmx => 0x16
  | .mul128fold64 => 0x17
  | .mix16b _ => 0x18
  | .secretRd32 _ => 0x19
  | .secretRd64 _ => 0x1A

/-- The R field a command is written with: 0 where the command has none (R73, an omitted operand is 0). -/
def Instr.rField : Instr → Nat
  | .rotl32 r => r
  | .rotl64 r => r
  | .hash32 | .hash64 | .hash128 | .h64Init | .h64Update | .h64Final | .bswap32 | .bswap64 | .aval64 | .aval3
  | .rrmxmx | .mul128fold64 | .mix16b _ | .secretRd32 _ | .secretRd64 _ => 0

/-- The K field a command is written with: 0 where the command has none (R73). -/
def Instr.kField : Instr → Nat
  | .mix16b k => k
  | .secretRd32 k => k
  | .secretRd64 k => k
  | .hash32 | .hash64 | .hash128 | .h64Init | .h64Update | .h64Final | .rotl32 _ | .rotl64 _ | .bswap32 | .bswap64
  | .aval64 | .aval3 | .rrmxmx | .mul128fold64 => 0

/-- A command word from its four fields, RSV first (R63). -/
def wordOf (rsv : BitVec 10) (k : BitVec 8) (r : BitVec 6) (opc : BitVec 8) : U32 :=
  rsv ++ (k ++ (r ++ opc))

/-- The command word of a command: `(k << 14) | (r << 8) | OPC` (R73), as its fields side by side (R63). -/
def encode (i : Instr) : U32 :=
  wordOf 0 (BitVec.ofNat 8 i.kField) (BitVec.ofNat 6 i.rField) i.opcode

/-- The instruction read from the bits `w` of an opcode-table row of `nbits` bits; every bit above `nbits` is 0. -/
def decodeTableWord (nbits w : Nat) : Option Instr :=
  let v := w % 2 ^ nbits
  if v < 2 ^ 32 then
    match decodeWord (BitVec.ofNat 32 v) with
    | .ok i => some i
    | .error _ => none
  else none

end Sys2Proof
end

