-- ==== Sys2Proof/Config.lean ====
section
/-! DEFINITION. What one XXH-CORE is built with: the implementation parameters of spec/00_scope.md R6 and the
constants of spec/10_state.md R27 to R30. None of them is written by a command (R31), so none of them is State. -/

namespace Sys2Proof.Config

/-- How `mul128Fold64` folds (R6, R87; spec/90_conflicts.md C2). -/
inductive FoldMode where
  /-- XXH's formula: the low and high partial products and the shifted cross terms are added. -/
  | sum
  /-- The alternative fold: the two halves of the 128-bit product are XORed. -/
  | xor
deriving DecidableEq, Repr

/-- The parameters of R6 that change a result. Every engine function takes them as an argument; the machine
runs with the decided values of `params`. -/
structure Params where
  /-- `PRIME64_1`, the 64-bit prime P1. -/
  prime64_1 : U64
  /-- `FOLD_MODE`. -/
  foldMode : FoldMode
  /-- `SECRET`, the bytes of the secret table. -/
  secret : List Byte
deriving DecidableEq, Repr

/-- `LEN_W`: a DATA length and the total-length counter have 64 bits (R6). -/
def lenW : Nat := 64

/-- `N_CTX`: one streaming context in a block (R6, R22). -/
def nCtx : Nat := 1

/-- Bytes in the secret table (R6, R27). -/
def secretSize : Nat := 192

/-- Bytes in the pending buffer `ctx.MEM` (R22, R40). -/
def bufSize : Nat := 32

/-- Bytes in one block of the 32-bit engine (R6). -/
def block32 : Nat := 16

/-- Bytes in one block of the 64-bit engine (R6). -/
def block64 : Nat := 32

/-- Bytes in one stripe of the long path (R6). -/
def stripe : Nat := 64

/-- The decided secret table, 16 bytes a row from offset 0 (R27). -/
def secretTable : List Byte :=
  [0xb8, 0xfe, 0x6c, 0x39, 0x23, 0xa4, 0x4b, 0xbe, 0x7c, 0x01, 0x81, 0x2c, 0xf7, 0x21, 0xad, 0x1c] ++
  [0xde, 0xd4, 0x6d, 0xe9, 0x83, 0x90, 0x97, 0xdb, 0x72, 0x40, 0xa4, 0xa4, 0xb7, 0xb3, 0x67, 0x1f] ++
  [0xcb, 0x79, 0xe6, 0x4e, 0xcc, 0xc0, 0xe5, 0x78, 0x82, 0x5a, 0xd0, 0x7d, 0xcc, 0xff, 0x72, 0x21] ++
  [0xb8, 0x08, 0x46, 0x74, 0xf7, 0x43, 0x24, 0x8e, 0xe0, 0x35, 0x90, 0xe6, 0x81, 0x3a, 0x26, 0x4c] ++
  [0x3c, 0x28, 0x52, 0xbb, 0x91, 0xc3, 0x00, 0xcb, 0x88, 0xd0, 0x65, 0x8b, 0x1b, 0x53, 0x2e, 0xa3] ++
  [0x71, 0x64, 0x48, 0x97, 0xa2, 0x0d, 0xf9, 0x4e, 0x38, 0x19, 0xef, 0x46, 0xa9, 0xde, 0xac, 0xd8] ++
  [0xa8, 0xfa, 0x76, 0x3f, 0xe3, 0x9c, 0x34, 0x3f, 0xf9, 0xdc, 0xbb, 0xc7, 0xc7, 0x0b, 0x4f, 0x1d] ++
  [0x8a, 0x51, 0xe0, 0x4b, 0xcd, 0xb4, 0x59, 0x31, 0xc8, 0x9f, 0x7e, 0xc9, 0xd9, 0x78, 0x73, 0x64] ++
  [0xea, 0xc5, 0xac, 0x83, 0x34, 0xd3, 0xeb, 0xc3, 0xc5, 0x81, 0xa0, 0xff, 0xfa, 0x13, 0x63, 0xeb] ++
  [0x17, 0x0d, 0xdd, 0x51, 0xb7, 0xf0, 0xda, 0x49, 0xd3, 0x16, 0x55, 0x26, 0x29, 0xd4, 0x68, 0x9e] ++
  [0x2b, 0x16, 0xbe, 0x58, 0x7d, 0x47, 0xa1, 0xfc, 0x8f, 0xf8, 0xb8, 0xd1, 0x7a, 0xd0, 0x31, 0xce] ++
  [0x45, 0xcb, 0x3a, 0x8f, 0x95, 0x16, 0x04, 0x28, 0xaf, 0xd7, 0xfb, 0xca, 0xbb, 0x4b, 0x40, 0x7e]

/-- The decided parameter values of this hardware (R6). -/
def params : Params where
  prime64_1 := 0x9E3779B185EBCA87
  foldMode := .sum
  secret := secretTable

/-- `P32_1` (R28). -/
def p32_1 : U32 := 0x9E3779B1
/-- `P32_2` (R28). -/
def p32_2 : U32 := 0x85EBCA77
/-- `P32_3` (R28). -/
def p32_3 : U32 := 0xC2B2AE3D
/-- `P32_4` (R28). -/
def p32_4 : U32 := 0x27D4EB2F
/-- `P32_5` (R28). -/
def p32_5 : U32 := 0x165667B1

/-- `P64_2` (R29). -/
def p64_2 : U64 := 0xC2B2AE3D27D4EB4F
/-- `P64_3` (R29). -/
def p64_3 : U64 := 0x165667B19E3779F9
/-- `P64_4` (R29). -/
def p64_4 : U64 := 0x85EBCA77C2B2AE63
/-- `P64_5` (R29). -/
def p64_5 : U64 := 0x27D4EB2F165667C5

/-- `MX2`, the multiplier of `rrmxmx` (R30). -/
def mx2 : U64 := 0x9FB21C651E98DF25
/-- `MX3`, the multiplier of `avalanche3` (R30). -/
def mx3 : U64 := 0x165667919E3779F9

end Sys2Proof.Config
end

