-- ==== Sys2Proof/Machine/Bits.lean ====
section
/-! DEFINITION. Bit fields, widening and byte order (spec/00_scope.md R7 to R10, spec/20_memory.md R41). -/

namespace Sys2Proof.Machine

/-- `zext_64` of a 32-bit value (R9). -/
def zext64 (v : U32) : U64 := v.setWidth 64

/-- `v[31:0]` of a 64-bit value (R7). -/
def lo32 (v : U64) : U32 := v.extractLsb' 0 32

/-- `v[63:32]` of a 64-bit value (R7). -/
def hi32 (v : U64) : U32 := v.extractLsb' 32 32

/-- `trunc_32` of a natural number (R10). -/
def trunc32 (n : Nat) : U32 := BitVec.ofNat 32 n

/-- `trunc_64` of a natural number (R10). -/
def trunc64 (n : Nat) : U64 := BitVec.ofNat 64 n

/-- The value of a byte sequence, least significant byte first: the sum of `S[k] * 2^(8k)` (R41). -/
def leNat : List Byte → Nat
  | [] => 0
  | b :: bs => b.toNat + 256 * leNat bs

/-- Byte `k` of a 64-bit value, counted from the least significant (R7). -/
def byteOf64 (v : U64) (k : Nat) : Byte := v.extractLsb' (8 * k) 8

/-- The 8 bytes whose little-endian value is `v` (R41). -/
def bytes64 (v : U64) : List Byte := (List.range 8).map (byteOf64 v)

end Sys2Proof.Machine
end

