-- ==== Sys2Proof/Machine/State.lean ====
section
/-! DEFINITION. The state of XXH-CORE as plain data: the streaming context (spec/10_state.md R22), and the command
interface (spec/30_encoding.md R60 to R62), which is the command the block has captured, the commands the host has
still to present, in order, and the responses returned so far (spec/70_reset_and_hazards.md R228). -/

namespace Sys2Proof.Machine

/-- The byte spaces of R40, and the byte sequences a rule builds from them. -/
inductive Space where
  /-- `IN`, the DATA operand of the captured command. -/
  | inp
  /-- `SEC`, the secret table. -/
  | sec
  /-- `BUF`, the pending buffer `ctx.MEM`. -/
  | buf
  /-- A sequence a rule builds: `W` of R152, the tail of R153, `in16` of R98. -/
  | built
deriving DecidableEq, Repr

/-- `BUF` as (offset, byte) pairs with strictly rising offsets below 32: the bytes of `ctx.MEM` that have been
written since reset. A byte that is not listed is unspecified (R34). -/
abbrev Memory := List Host.Cell

/-- `ctx.STATE` (R23). -/
inductive StreamState where
  /-- No stream has been started since reset. -/
  | idle
  /-- H64_INIT has run and no H64_FINAL since. -/
  | active
  /-- H64_FINAL has consumed the stream. -/
  | done
deriving DecidableEq, Repr

/-- The four lanes of the 32-bit engine (R121). -/
structure Lanes32 where
  v1 : U32
  v2 : U32
  v3 : U32
  v4 : U32
deriving DecidableEq, Repr

/-- The four lanes of the 64-bit engine (R142), and `ctx.V[1..4]` (R22). -/
structure Lanes64 where
  v1 : U64
  v2 : U64
  v3 : U64
  v4 : U64
deriving DecidableEq, Repr

/-- The streaming context `ctx` (R22). -/
structure Ctx where
  /-- `ctx.STATE`, the lifecycle. -/
  st : StreamState
  /-- `ctx.V[1..4]`, the lane accumulators. -/
  v : Lanes64
  /-- `ctx.MEM[0..31]`, the pending buffer. -/
  mem : Memory
  /-- `ctx.MEMSIZE`, 0 to 31 by its 5 bits (R22; DEDUCED, notes/assumptions/8.md). -/
  memsize : Fin 32
  /-- `ctx.TOTAL_LEN`, modulo 2^64. -/
  totalLen : U64
  /-- `ctx.LARGE`, the only status flag (R25). -/
  large : Bool
  /-- `ctx.SEED`. -/
  seed : U64
deriving DecidableEq, Repr

/-- A command: the command word and its operands (R61). -/
structure Command where
  /-- `CMD`. -/
  word : U32
  /-- `SEED`. -/
  seed : U64
  /-- `A`. -/
  a : U64
  /-- `B`. -/
  b : U64
  /-- `DATA`, the `IN` space. -/
  data : List Byte
deriving DecidableEq, Repr

/-- A response (R62). -/
structure Response where
  /-- `STATUS`: 0, or an error code (R200). -/
  status : BitVec 8
  /-- `LO`. -/
  lo : U64
  /-- `HI`. -/
  hi : U64
deriving DecidableEq, Repr

/-- The errors a command can raise (R200). -/
inductive Err where
  /-- The command word does not decode (R201). -/
  | illegal
  /-- A streaming command outside ACTIVE (R202). -/
  | state
  /-- A secret offset past its limit (R203). -/
  | range
deriving DecidableEq, Repr

/-- XXH-CORE and its command interface. -/
structure State where
  /-- The streaming context, the only mutable state inside the block (R22). -/
  ctx : Ctx
  /-- The command captured last, operands and DATA included (R48). -/
  cmd : Command
  /-- The commands the host has still to present, in the order it issues them (R60, R223). -/
  pending : List Command
  /-- The responses returned so far, oldest first (R60, R228). -/
  responses : List Response
deriving DecidableEq, Repr

/-- Why the machine stops with a fault. The spec has no fault: a rule that reached one would be transcribed
wrongly (R46), and these are the stops that R46 asks a model for. -/
inductive Fault where
  /-- Raised by every read of a byte space (`readBytes`, `bufRead`) whose bytes do not all exist (R46). Safe: the
  block has no such behaviour. -/
  | readOutOfBounds (space : Space) (off w : Nat)
  /-- Raised by `bufStore` for a store past the end of `BUF` (R40, R47). Safe: the block has no such behaviour. -/
  | writeOutOfBounds (off w : Nat)
  /-- Raised by `bufRead` for a byte of `ctx.MEM` that nothing has written since reset, which no command may read
  (R34). Safe: a claim about its value is unprovable. -/
  | readUnspecified (off : Nat)
deriving DecidableEq, Repr

/-- Why a step is refused. -/
inductive Refusal where
  /-- Raised by `exec` for a command that has no meaning yet. Safe: nothing is claimed of it. -/
  | notModelled (mnemonic : String)
  /-- Raised by `step` for a command whose DATA has 2^64 bytes or more, which cannot be issued
  (spec/93_implementation_defined.md U13). Safe: the block never sees such a command. -/
  | dataTooLong
deriving DecidableEq, Repr

/-- What the block finds at its command interface. -/
inductive Issue where
  /-- The host has presented no command. -/
  | idle
  /-- The command presented cannot be issued (U13). -/
  | tooLong
  /-- The command is captured: the state with it in place. -/
  | captured (s : State)
deriving DecidableEq, Repr

/-- The context right after reset. R34 and R220 fix STATE to IDLE and leave every other field unspecified.
DESIGN CHOICE: the registers are zero, and no byte of MEM is listed (notes/assumptions/1.md and 2.md). -/
def Ctx.reset : Ctx where
  st := .idle
  v := ⟨0, 0, 0, 0⟩
  mem := []
  memsize := 0
  totalLen := 0
  large := false
  seed := 0

/-- No command captured: every field zero or empty. DESIGN CHOICE (notes/assumptions/3.md). -/
def Command.none : Command where
  word := 0
  seed := 0
  a := 0
  b := 0
  data := []

/-- The machine right after reset (R34, R220): `ctx.STATE = IDLE`, no command presented, no response returned. -/
def State.reset : State where
  ctx := Ctx.reset
  cmd := Command.none
  pending := []
  responses := []

end Sys2Proof.Machine
end

