-- ==== Sys2Proof/Machine/Ops.lean ====
section
/-! DEFINITION. The shared operations: reads of the byte spaces (spec/20_memory.md R40 to R48), the store into the
pending buffer, and the command interface (spec/30_encoding.md R60 to R62) with `return` and `raise` of
spec/00_scope.md R11. -/

namespace Sys2Proof.Machine

open Config (Params)

/-! ### Reads of a byte sequence -/

/-- The `w` bytes of `B` at offsets `off` to `off + w - 1`; a read that leaves the space stops (R46). -/
def readBytes (sp : Space) (B : List Byte) (off w : Nat) : Except Fault (List Byte) :=
  if off + w ≤ B.length then .ok ((B.drop off).take w) else .error (.readOutOfBounds sp off w)

/-- `MemRead(S, off, w)`: the little-endian value of `w` bytes at any offset, aligned or not (R41, R45). -/
def memRead (sp : Space) (B : List Byte) (off w : Nat) : Except Fault Nat := do
  let bs ← readBytes sp B off w
  pure (leNat bs)

/-- `MemRead` of one byte, which is the byte itself (R43). -/
def read8 (sp : Space) (B : List Byte) (off : Nat) : Except Fault Byte := do
  let n ← memRead sp B off 1
  pure (BitVec.ofNat 8 n)

/-- `LE32(B, off)` (R42). -/
def le32 (sp : Space) (B : List Byte) (off : Nat) : Except Fault U32 := do
  let n ← memRead sp B off 4
  pure (BitVec.ofNat 32 n)

/-- `LE64(B, off)` (R42). -/
def le64 (sp : Space) (B : List Byte) (off : Nat) : Except Fault U64 := do
  let n ← memRead sp B off 8
  pure (BitVec.ofNat 64 n)

/-- `K32[i]`: the 4-byte read of the secret table (R42). -/
def k32 (P : Params) (i : Nat) : Except Fault U32 := le32 .sec P.secret i

/-- `K64[i]`: the 8-byte read of the secret table (R42). -/
def k64 (P : Params) (i : Nat) : Except Fault U64 := le64 .sec P.secret i

/-! ### The pending buffer -/

/-- The byte listed at an offset of `BUF`, if one has been written. -/
def Memory.get : Memory → Nat → Option Byte
  | [], _ => none
  | (k, b) :: m, off => if k = off then some b else Memory.get m off

/-- `BUF` with one byte written: the pair stands at its place in the rising order, in place of an older one. -/
def Memory.put : Memory → Nat → Byte → Memory
  | [], off, b => [(off, b)]
  | (k, c) :: m, off, b =>
    if off < k then (off, b) :: (k, c) :: m
    else if off = k then (off, b) :: m
    else (k, c) :: Memory.put m off b

/-- Offsets strictly rising, each at least `lo` and below the size of `BUF`. -/
def Memory.risesFrom : Nat → Memory → Bool
  | _, [] => true
  | lo, (k, _) :: m => decide (lo ≤ k) && decide (k < Config.bufSize) && Memory.risesFrom (k + 1) m

/-- The canonical form of `BUF`: offsets strictly rising and inside its 32 bytes (R40). -/
def Memory.wf (m : Memory) : Bool := Memory.risesFrom 0 m

/-- A 1-byte read of `BUF`: outside its 32 bytes it stops (R46), and so does a byte nothing has written (R34). -/
def bufRead (m : Memory) (off : Nat) : Except Fault Byte :=
  if off < Config.bufSize then
    match m.get off with
    | some b => .ok b
    | none => .error (.readUnspecified off)
  else .error (.readOutOfBounds .buf off 1)

/-- `BUF[off..off+n)`, byte by byte. -/
def bufTake (m : Memory) : Nat → Nat → Except Fault (List Byte)
  | _, 0 => .ok []
  | off, n + 1 => do
    let b ← bufRead m off
    let bs ← bufTake m (off + 1) n
    pure (b :: bs)

/-- `BUF` with the bytes of `bs` written at `off`, `off + 1`, …. -/
def Memory.putAll : Memory → Nat → List Byte → Memory
  | m, _, [] => m
  | m, off, b :: bs => Memory.putAll (m.put off b) (off + 1) bs

/-- The store `BUF[off..off+len) <- bs` (R47, R152); a store past the end of `BUF` stops
(DESIGN CHOICE, notes/assumptions/7.md). -/
def bufStore (m : Memory) (off : Nat) (bs : List Byte) : Except Fault Memory :=
  if off + bs.length ≤ Config.bufSize then .ok (m.putAll off bs)
  else .error (.writeOutOfBounds off bs.length)

/-! ### The command interface -/

/-- STATUS code of an error (R200). -/
def Err.code : Err → BitVec 8
  | .illegal => 1
  | .state => 2
  | .range => 3

/-- The response of a command that succeeds: STATUS 0 (R62). -/
def Response.ok (lo hi : U64) : Response := ⟨0, lo, hi⟩

/-- The response of a command that raises an error: LO = HI = 0 (R62, R204). -/
def Response.err (e : Err) : Response := ⟨e.code, 0, 0⟩

/-- The state with one more response returned to the host (R60). -/
def State.respond (s : State) (r : Response) : State := { s with responses := s.responses ++ [r] }

/-- The state with another streaming context. -/
def State.setCtx (s : State) (c : Ctx) : State := { s with ctx := c }

/-- Reset while the block holds a state (R220): a stream in progress is abandoned without a result and
`ctx.STATE <- IDLE`; no response is returned. Every other field of `ctx` is unspecified (R34) and keeps what it
held, which no command reads (notes/assumptions/1.md). -/
def State.resetBlock (s : State) : State := s.setCtx { s.ctx with st := .idle }

/-- `return (lo, hi)`: the command ends with STATUS OK (R11, R62). -/
def State.ret (s : State) (lo hi : U64) : Host.Outcome State Fault Refusal := .next (s.respond (.ok lo hi))

/-- `raise E`: the exception of this hardware. It saves nothing, changes no mode and transfers no control
(R208); ctx keeps every field and the response is `(code, 0, 0)` (R11, R204). There is nothing to return from:
the block accepts the next command in the same state (R209). -/
def State.raise (s : State) (e : Err) : Host.Outcome State Fault Refusal := .next (s.respond (.err e))

/-- The end of a command whose result is a pair computed from reads of the byte spaces. -/
def State.complete (s : State) (x : Except Fault (U64 × U64)) : Host.Outcome State Fault Refusal :=
  match x with
  | .ok (lo, hi) => s.ret lo hi
  | .error f => .fault f

/-- The end of a command whose result is one 64-bit word: HI = 0 (R62). -/
def State.complete64 (s : State) (x : Except Fault U64) : Host.Outcome State Fault Refusal :=
  s.complete (x.map fun r => (r, 0))

/-- The end of a command whose result is one 32-bit word: LO is its zero-extension and HI = 0 (R62). -/
def State.complete32 (s : State) (x : Except Fault U32) : Host.Outcome State Fault Refusal :=
  s.complete64 (x.map zext64)

/-- A command whose DATA length fits `LEN_W` bits can be issued (R61; spec/93_implementation_defined.md U13). -/
def Command.issuable (c : Command) : Bool := decide (c.data.length < 2 ^ Config.lenW)

/-- The state in which the block has captured the command `c`, operands and DATA (R48), and the host has still to
present `rest`. -/
def State.capture (s : State) (c : Command) (rest : List Command) : State :=
  { s with cmd := c, pending := rest }

/-- What the command interface holds: the host's commands are taken one at a time, in issue order (R60, R223). -/
def State.issue (s : State) : Issue :=
  match s.pending with
  | [] => .idle
  | c :: rest => if c.issuable then .captured (s.capture c rest) else .tooLong

end Sys2Proof.Machine
end

