-- ==== Sys2Proof/Machine/Operands.lean ====
section
/-! DEFINITION. The operand forms of spec/30_encoding.md R66: which field of the captured command an operand is read
from. The rotate amount R and the secret offset K are fields of the command word and stand in `Instr`. -/

namespace Sys2Proof.Machine

/-- `SEED`, all 64 bits. -/
def State.opSeed (s : State) : U64 := s.cmd.seed

/-- `SEED[31:0]`, the seed of HASH32. -/
def State.opSeed32 (s : State) : U32 := lo32 s.cmd.seed

/-- `A`, all 64 bits. -/
def State.opA (s : State) : U64 := s.cmd.a

/-- `A[31:0]`, the operand of ROTL32 and BSWAP32. -/
def State.opA32 (s : State) : U32 := lo32 s.cmd.a

/-- `B`, all 64 bits. -/
def State.opB (s : State) : U64 := s.cmd.b

/-- `DATA`, the `IN` space (R40). -/
def State.opData (s : State) : List Byte := s.cmd.data

/-- The 16 input bytes of MIX16B: `LE64` at 0 is A and `LE64` at 8 is B (R98). -/
def State.opIn16 (s : State) : List Byte := bytes64 s.cmd.a ++ bytes64 s.cmd.b

end Sys2Proof.Machine
end

