-- ==== Sys2Proof/Machine/Mixing.lean ====
section
/-! DEFINITION. The sub-block `mixing_primitives`: its functions (spec/40_mixing_primitives.md R80 to R88) and the
commands that expose them one by one (R90 to R100). -/

namespace Sys2Proof.Machine

open Config (Params)

/-! ### The functions -/

/-- `rotl32` (R80). -/
def rotl32 (v : U32) (r : Nat) : U32 :=
  let n := r % 32
  if n = 0 then v else (v <<< n) ||| (v >>> (32 - n))

/-- `rotl64` (R81). -/
def rotl64 (v : U64) (r : Nat) : U64 :=
  let n := r % 64
  if n = 0 then v else (v <<< n) ||| (v >>> (64 - n))

/-- `bswap32` (R82). -/
def bswap32 (v : U32) : U32 :=
  ((v.extractLsb' 0 8).setWidth 32 <<< 24) ||| ((v.extractLsb' 8 8).setWidth 32 <<< 16) |||
    ((v.extractLsb' 16 8).setWidth 32 <<< 8) ||| (v.extractLsb' 24 8).setWidth 32

/-- `bswap64` (R83): byte `k` of the result is byte `7 - k` of `v`. -/
def bswap64 (v : U64) : U64 := BitVec.ofNat 64 (leNat (bytes64 v).reverse)

/-- `avalanche64` (R84). -/
def avalanche64 (h : U64) : U64 :=
  let h := h ^^^ (h >>> 33)
  let h := h * Config.p64_2
  let h := h ^^^ (h >>> 29)
  let h := h * Config.p64_3
  h ^^^ (h >>> 32)

/-- `avalanche3` (R85). -/
def avalanche3 (h : U64) : U64 :=
  let h := h ^^^ (h >>> 37)
  let h := h * Config.mx3
  h ^^^ (h >>> 32)

/-- `rrmxmx` (R86). -/
def rrmxmx (h len : U64) : U64 :=
  let h := h ^^^ (rotl64 h 49 ^^^ rotl64 h 24)
  let h := h * Config.mx2
  let h := h ^^^ ((h >>> 35) + len)
  let h := h * Config.mx2
  h ^^^ (h >>> 28)

/-- The SUM fold of R87: three partial products added, with `cross` shifted. -/
def foldSum (a b : U64) : U64 :=
  let aL := zext64 (lo32 a)
  let aH := zext64 (hi32 a)
  let bL := zext64 (lo32 b)
  let bH := zext64 (hi32 b)
  let cross := aL * bH + aH * bL
  aL * bL + (cross <<< 32) + aH * bH

/-- The XOR fold of R87: the halves of the 128-bit product. -/
def foldXor (a b : U64) : U64 :=
  let p : BitVec 128 := a.setWidth 128 * b.setWidth 128
  p.extractLsb' 0 64 ^^^ p.extractLsb' 64 64

/-- `mul128Fold64` (R87), with the mode given by `FOLD_MODE`. -/
def mul128Fold64 (P : Params) (a b : U64) : U64 :=
  match P.foldMode with
  | .sum => foldSum a b
  | .xor => foldXor a b

/-- `mix16B(in16, so, seed)` (R88). -/
def mix16B (P : Params) (in16 : List Byte) (so : Nat) (seed : U64) : Except Fault U64 := do
  let w0 ← le64 .built in16 0
  let w1 ← le64 .built in16 8
  let s0 ← k64 P so
  let s1 ← k64 P (so + 8)
  pure (mul128Fold64 P (w0 ^^^ (s0 + seed)) (w1 ^^^ (s1 - seed)))

/-! ### The commands -/

/-- ROTL32 (R90). -/
def execRotl32 (r : Nat) (s : State) : Host.Outcome State Fault Refusal :=
  s.ret (zext64 (rotl32 s.opA32 r)) 0

/-- ROTL64 (R91). -/
def execRotl64 (r : Nat) (s : State) : Host.Outcome State Fault Refusal :=
  s.ret (rotl64 s.opA r) 0

/-- BSWAP32 (R92). -/
def execBswap32 (s : State) : Host.Outcome State Fault Refusal :=
  s.ret (zext64 (bswap32 s.opA32)) 0

/-- BSWAP64 (R93). -/
def execBswap64 (s : State) : Host.Outcome State Fault Refusal :=
  s.ret (bswap64 s.opA) 0

/-- AVAL64 (R94). -/
def execAval64 (s : State) : Host.Outcome State Fault Refusal :=
  s.ret (avalanche64 s.opA) 0

/-- AVAL3 (R95). -/
def execAval3 (s : State) : Host.Outcome State Fault Refusal :=
  s.ret (avalanche3 s.opA) 0

/-- RRMXMX: A is h, B is len (R96). -/
def execRrmxmx (s : State) : Host.Outcome State Fault Refusal :=
  s.ret (rrmxmx s.opA s.opB) 0

/-- MUL128FOLD64 (R97). -/
def execMul128fold64 (s : State) : Host.Outcome State Fault Refusal :=
  s.ret (mul128Fold64 Config.params s.opA s.opB) 0

/-- MIX16B: RANGE when K > 176 (R98, R203). -/
def execMix16b (k : Nat) (s : State) : Host.Outcome State Fault Refusal :=
  if k > 176 then s.raise .range
  else s.complete64 (mix16B Config.params s.opIn16 k s.opSeed)

/-- SECRET_RD32: RANGE when K > 188 (R99, R203). -/
def execSecretRd32 (k : Nat) (s : State) : Host.Outcome State Fault Refusal :=
  if k > 188 then s.raise .range
  else s.complete32 (k32 Config.params k)

/-- SECRET_RD64: RANGE when K > 184 (R100, R203). -/
def execSecretRd64 (k : Nat) (s : State) : Host.Outcome State Fault Refusal :=
  if k > 184 then s.raise .range
  else s.complete64 (k64 Config.params k)

end Sys2Proof.Machine
end

