-- ==== Sys2Proof/Machine/Hash128.lean ====
section
/-! DEFINITION. The sub-block `xxhash3_128_dispatcher` (spec/43_xxhash3_128_dispatcher.md R170 to R179): the seven
length classes and HASH128. Each class answers the pair (low, high). -/

namespace Sys2Proof.Machine

open Config (Params)

/-- The length classes (R170). -/
inductive LenClass where
  | c0
  | c1to3
  | c4to8
  | c9to16
  | c17to128
  | c129to240
  | c241
deriving DecidableEq, Repr

/-- `lenclass(n)` (R170). -/
def lenClass (n : Nat) : LenClass :=
  if n = 0 then .c0
  else if n ≤ 3 then .c1to3
  else if n ≤ 8 then .c4to8
  else if n ≤ 16 then .c9to16
  else if n ≤ 128 then .c17to128
  else if n ≤ 240 then .c129to240
  else .c241

/-- `mix16B(p, so)`: the mixer on the 16 input bytes at `p` (R88 with IN[p..p+16)). -/
def mixAt (P : Params) (B : List Byte) (s : U64) (p so : Nat) : Except Fault U64 := do
  let in16 ← readBytes .inp B p 16
  mix16B P in16 so s

/-- Class C0 (R171). -/
def hash128C0 (P : Params) (s : U64) : Except Fault (U64 × U64) := do
  let a ← k64 P 56
  let b ← k64 P 64
  let c ← k64 P 72
  let d ← k64 P 80
  pure (avalanche64 (s ^^^ (a ^^^ b)), avalanche64 (s ^^^ (c ^^^ d)))

/-- The packed word of class C1_3: first byte, middle byte, last byte and length (R172). -/
def pack3 (c1 c2 c3 : Byte) (n : Nat) : U32 :=
  (c1.setWidth 32 <<< 16) ||| (c2.setWidth 32 <<< 24) ||| c3.setWidth 32 ||| (trunc32 n <<< 8)

/-- Class C1_3 (R172). -/
def hash128C1to3 (P : Params) (B : List Byte) (s : U64) : Except Fault (U64 × U64) := do
  let n := B.length
  let c1 ← read8 .inp B 0
  let c2 ← read8 .inp B (n / 2)
  let c3 ← read8 .inp B (n - 1)
  let x ← k32 P 0
  let y ← k32 P 4
  let c := zext64 (pack3 c1 c2 c3 n)
  let base := zext64 (x ^^^ y)
  pure (avalanche64 (c ^^^ (base + s)), avalanche64 (c ^^^ (base - s)))

/-- The folded seed of class C4_8 (R173). -/
def seed4to8 (s : U64) : U64 := s ^^^ (zext64 (bswap32 (lo32 s)) <<< 32)

/-- Class C4_8 (R173). -/
def hash128C4to8 (P : Params) (B : List Byte) (s : U64) : Except Fault (U64 × U64) := do
  let n := B.length
  let last ← le32 .inp B (n - 4)
  let first ← le32 .inp B 0
  let a ← k64 P 8
  let b ← k64 P 16
  let c ← k64 P 24
  let d ← k64 P 32
  let w := zext64 last + (zext64 first <<< 32)
  pure (rrmxmx (w ^^^ ((a ^^^ b) - seed4to8 s)) (trunc64 n), rrmxmx (w ^^^ ((c ^^^ d) + seed4to8 s)) (trunc64 n))

/-- Class C9_16 (R174). -/
def hash128C9to16 (P : Params) (B : List Byte) (s : U64) : Except Fault (U64 × U64) := do
  let n := B.length
  let first ← le64 .inp B 0
  let last ← le64 .inp B (n - 8)
  let a ← k64 P 24
  let b ← k64 P 32
  let c ← k64 P 40
  let d ← k64 P 48
  let lo := first ^^^ ((a ^^^ b) + s)
  let hi := last ^^^ ((c ^^^ d) - s)
  let f := mul128Fold64 P lo hi
  pure (avalanche3 (trunc64 n + bswap64 lo + hi + f), avalanche3 (trunc64 n + bswap64 hi + lo + f))

/-- Tier `t` of class C17_128: it runs when `n > 32 * t`, on the window at `16 * t` and its mirror near the end, and
the high accumulator exchanges the two secret slices (R175). -/
def tier17to128 (P : Params) (B : List Byte) (s : U64) (acc : U64 × U64) (t : Nat) : Except Fault (U64 × U64) :=
  if B.length > 32 * t then do
    let a := 16 * t
    let b := B.length - 16 * (t + 1)
    let aa ← mixAt P B s a (32 * t)
    let bb ← mixAt P B s b (32 * t + 16)
    let ba ← mixAt P B s b (32 * t)
    let ab ← mixAt P B s a (32 * t + 16)
    pure (acc.1 + aa + bb, acc.2 + ba + ab)
  else .ok acc

/-- Class C17_128: up to four tiers (R175). -/
def hash128C17to128 (P : Params) (B : List Byte) (s : U64) : Except Fault (U64 × U64) := do
  let acc ← (List.range 4).foldlM (tier17to128 P B s) (trunc64 B.length * P.prime64_1, 0)
  pure (avalanche3 acc.1, avalanche3 acc.2)

/-- One mixer call added to an accumulator. -/
def addMix (P : Params) (B : List Byte) (s : U64) (acc : U64) (p so : Nat) : Except Fault U64 := do
  let m ← mixAt P B s p so
  pure (acc + m)

/-- Class C129_240: eight fixed calls into the low accumulator; the other whole 16-byte blocks and the last 16 bytes
into the high one (R176). -/
def hash128C129to240 (P : Params) (B : List Byte) (s : U64) : Except Fault (U64 × U64) := do
  let n := B.length
  let low ← (List.range 8).foldlM (fun acc i => addMix P B s acc (16 * i) (16 * i)) (trunc64 n * P.prime64_1)
  let high ← (List.range' 8 (n / 16 - 8)).foldlM (fun acc i => addMix P B s acc (16 * i) (16 * (i - 8) + 3)) 0
  let high ← addMix P B s high (n - 16) 119
  pure (avalanche3 low, avalanche3 high)

/-- `mix32x32` (R177). -/
def mix32x32 (w k : U64) : U64 :=
  zext64 (lo32 w) * zext64 (lo32 k) + zext64 (hi32 w) * zext64 (hi32 k)

/-- Word `j` of a stripe at `off`: the low accumulator takes the secret word plus `pert`, the high one that
plus 1 (R178). -/
def longWord (P : Params) (B : List Byte) (off : Nat) (pert : U64) (acc : U64 × U64) (j : Nat) :
    Except Fault (U64 × U64) := do
  let w ← le64 .inp B (off + 8 * j)
  let k ← k64 P (8 * j)
  pure (acc.1 + mix32x32 w (k + pert), acc.2 + mix32x32 w (k + pert + 1))

/-- The eight words of a stripe (R178). -/
def longStripe (P : Params) (B : List Byte) (off : Nat) (pert : U64) (acc : U64 × U64) : Except Fault (U64 × U64) :=
  (List.range 8).foldlM (longWord P B off pert) acc

/-- The last 64 bytes again with the unperturbed seed, when some bytes follow the last full stripe (R178). -/
def longRest (P : Params) (B : List Byte) (s : U64) (acc : U64 × U64) : Except Fault (U64 × U64) :=
  if B.length % Config.stripe ≠ 0 then longStripe P B (B.length - 64) s acc else .ok acc

/-- Class C241: every full stripe, then the remaining bytes (R178). -/
def hash128C241 (P : Params) (B : List Byte) (s : U64) : Except Fault (U64 × U64) := do
  let n := B.length
  let acc ← (List.range (n / Config.stripe)).foldlM
    (fun acc i => longStripe P B (64 * i) (s + 64 * trunc64 i) acc) (trunc64 n * P.prime64_1, trunc64 n * Config.p64_2)
  let acc ← longRest P B s acc
  pure (avalanche3 acc.1, avalanche3 acc.2)

/-- `hash128(input, seed)`: the class of the length decides (R179). -/
def hash128 (P : Params) (B : List Byte) (s : U64) : Except Fault (U64 × U64) :=
  match lenClass B.length with
  | .c0 => hash128C0 P s
  | .c1to3 => hash128C1to3 P B s
  | .c4to8 => hash128C4to8 P B s
  | .c9to16 => hash128C9to16 P B s
  | .c17to128 => hash128C17to128 P B s
  | .c129to240 => hash128C129to240 P B s
  | .c241 => hash128C241 P B s

/-- HASH128 (R179). -/
def execHash128 (s : State) : Host.Outcome State Fault Refusal :=
  s.complete (hash128 Config.params s.opData s.opSeed)

end Sys2Proof.Machine
end

