-- ==== Sys2Proof/Machine/Hash32.lean ====
section
/-! DEFINITION. The sub-block `xxhash32_engine` (spec/41_xxhash32_engine.md R120 to R125): the one-shot 32-bit hash. -/

namespace Sys2Proof.Machine

open Config (p32_1 p32_2 p32_3 p32_4 p32_5)

/-- `round32` (R120). -/
def round32 (acc w : U32) : U32 := rotl32 (acc + w * p32_2) 13 * p32_1

/-- `lanes32_init` (R121). -/
def lanes32Init (s : U32) : Lanes32 := ⟨s + p32_1 + p32_2, s + p32_2, s, s - p32_1⟩

/-- The block step at offset `p`: lane j takes word j of the block (R122). -/
def block32Step (B : List Byte) (p : Nat) (v : Lanes32) : Except Fault Lanes32 := do
  let w1 ← le32 .inp B p
  let w2 ← le32 .inp B (p + 4)
  let w3 ← le32 .inp B (p + 8)
  let w4 ← le32 .inp B (p + 12)
  pure ⟨round32 v.v1 w1, round32 v.v2 w2, round32 v.v3 w3, round32 v.v4 w4⟩

/-- `k` block steps from offset `p` on (R125). -/
def foldBlocks32 (B : List Byte) : Nat → Nat → Lanes32 → Except Fault Lanes32
  | 0, _, v => .ok v
  | k + 1, p, v => do
    let v' ← block32Step B p v
    foldBlocks32 B k (p + Config.block32) v'

/-- `converge32` (R123). -/
def converge32 (v : Lanes32) : U32 := rotl32 v.v1 1 + rotl32 v.v2 7 + rotl32 v.v3 12 + rotl32 v.v4 18

/-- `final32` (R124). -/
def final32 (h : U32) : U32 :=
  let h := h ^^^ (h >>> 15)
  let h := h * p32_2
  let h := h ^^^ (h >>> 13)
  let h := h * p32_3
  h ^^^ (h >>> 16)

/-- The hash before the length is added: the converged lanes after every full block when `n >= 16`, else
`s + P5` (R125). -/
def head32 (B : List Byte) (s : U32) : Except Fault U32 :=
  if 16 ≤ B.length then do
    let v ← foldBlocks32 B (B.length / Config.block32) 0 (lanes32Init s)
    pure (converge32 v)
  else .ok (s + p32_5)

/-- `k` remaining 4-byte words from offset `p` on (R125). -/
def tailWords32 (B : List Byte) : Nat → Nat → U32 → Except Fault U32
  | 0, _, h => .ok h
  | k + 1, p, h => do
    let w ← le32 .inp B p
    tailWords32 B k (p + 4) (rotl32 (h + w * p32_3) 17 * p32_4)

/-- `k` remaining single bytes from offset `p` on (R125). -/
def tailBytes32 (B : List Byte) : Nat → Nat → U32 → Except Fault U32
  | 0, _, h => .ok h
  | k + 1, p, h => do
    let b ← read8 .inp B p
    tailBytes32 B k (p + 1) (rotl32 (h + b.setWidth 32 * p32_5) 11 * p32_1)

/-- `hash32(input, seed)` (R125): head, length, words, bytes, `final32`. -/
def hash32 (B : List Byte) (s : U32) : Except Fault U32 := do
  let n := B.length
  let p := Config.block32 * (n / Config.block32)
  let q := p + 4 * ((n - p) / 4)
  let h ← head32 B s
  let h ← tailWords32 B ((n - p) / 4) p (h + trunc32 n)
  let h ← tailBytes32 B (n - q) q h
  pure (final32 h)

/-- HASH32 (R125). -/
def execHash32 (s : State) : Host.Outcome State Fault Refusal :=
  s.complete32 (hash32 s.opData s.opSeed32)

end Sys2Proof.Machine
end

