-- ==== Sys2Proof/Machine/Flags.lean ====
section
/-! DEFINITION. `ctx.LARGE`, the only status flag of XXH-CORE (spec/10_state.md R25). -/

namespace Sys2Proof.Machine

/-- LARGE after H64_INIT (R150). -/
def largeAfterInit : Bool := false

/-- LARGE after an H64_UPDATE that folds `blocks` blocks: set by a fold, never cleared (R152). -/
def largeAfterFold (large : Bool) (blocks : Nat) : Bool := large || decide (0 < blocks)

end Sys2Proof.Machine
end

