-- ==== Sys2Proof/Machine/Hash64.lean ====
section
/-! DEFINITION. The one-shot half of the sub-block `xxhash64_engine` (spec/42_xxhash64_engine.md R140 to R145). -/

namespace Sys2Proof.Machine

open Config (Params p64_2 p64_3 p64_4 p64_5)

/-- `round64` (R140). -/
def round64 (P : Params) (acc w : U64) : U64 := rotl64 (acc + w * p64_2) 31 * P.prime64_1

/-- `merge64` (R141). -/
def merge64 (P : Params) (h v : U64) : U64 := (h ^^^ round64 P 0 v) * P.prime64_1 + p64_4

/-- `lanes64_init` (R142). -/
def lanes64Init (P : Params) (s : U64) : Lanes64 := ⟨s + P.prime64_1 + p64_2, s + p64_2, s, s - P.prime64_1⟩

/-- The block step at offset `p` of `B`: lane j takes word j of the block (R145, R152). -/
def block64Step (P : Params) (sp : Space) (B : List Byte) (p : Nat) (v : Lanes64) : Except Fault Lanes64 := do
  let w1 ← le64 sp B p
  let w2 ← le64 sp B (p + 8)
  let w3 ← le64 sp B (p + 16)
  let w4 ← le64 sp B (p + 24)
  pure ⟨round64 P v.v1 w1, round64 P v.v2 w2, round64 P v.v3 w3, round64 P v.v4 w4⟩

/-- `k` block steps from offset `p` on (R145, R152). -/
def foldBlocks64 (P : Params) (sp : Space) (B : List Byte) : Nat → Nat → Lanes64 → Except Fault Lanes64
  | 0, _, v => .ok v
  | k + 1, p, v => do
    let v' ← block64Step P sp B p v
    foldBlocks64 P sp B k (p + Config.block64) v'

/-- `converge64`: combine the lanes, then merge-round v1 to v4 in order (R143). -/
def converge64 (P : Params) (v : Lanes64) : U64 :=
  let h := rotl64 v.v1 1 + rotl64 v.v2 7 + rotl64 v.v3 12 + rotl64 v.v4 18
  let h := merge64 P h v.v1
  let h := merge64 P h v.v2
  let h := merge64 P h v.v3
  merge64 P h v.v4

/-- One 8-byte step of the tail (R144). -/
def tailStep8 (P : Params) (h w : U64) : U64 := rotl64 (h ^^^ round64 P 0 w) 27 * P.prime64_1 + p64_4

/-- The 4-byte step of the tail (R144). -/
def tailStep4 (P : Params) (h : U64) (w : U32) : U64 := rotl64 (h ^^^ (zext64 w * P.prime64_1)) 23 * p64_2 + p64_3

/-- One single-byte step of the tail (R144). -/
def tailStep1 (P : Params) (h : U64) (b : Byte) : U64 := rotl64 (h ^^^ (b.setWidth 64 * p64_5)) 11 * P.prime64_1

/-- `k` 8-byte words of the tail from offset `p` on (R144). -/
def tailWords64 (P : Params) (sp : Space) (T : List Byte) : Nat → Nat → U64 → Except Fault U64
  | 0, _, h => .ok h
  | k + 1, p, h => do
    let w ← le64 sp T p
    tailWords64 P sp T k (p + 8) (tailStep8 P h w)

/-- At most one 4-byte word of the tail, at offset `p` (R144). -/
def tailWord32 (P : Params) (sp : Space) (T : List Byte) (p : Nat) (h : U64) : Except Fault U64 :=
  if 4 ≤ T.length - p then do
    let w ← le32 sp T p
    pure (tailStep4 P h w)
  else .ok h

/-- `k` single bytes of the tail from offset `p` on (R144). -/
def tailBytes64 (P : Params) (sp : Space) (T : List Byte) : Nat → Nat → U64 → Except Fault U64
  | 0, _, h => .ok h
  | k + 1, p, h => do
    let b ← read8 sp T p
    tailBytes64 P sp T k (p + 1) (tailStep1 P h b)

/-- `tail64(h, T)`: 8-byte words, at most one 4-byte word, single bytes, `avalanche64` (R144). -/
def tail64 (P : Params) (sp : Space) (h : U64) (T : List Byte) : Except Fault U64 := do
  let m := T.length
  let p := 8 * (m / 8)
  let q := p + 4 * ((m - p) / 4)
  let h ← tailWords64 P sp T (m / 8) 0 h
  let h ← tailWord32 P sp T p h
  let h ← tailBytes64 P sp T (m - q) q h
  pure (avalanche64 h)

/-- The hash before the length is added: the converged lanes after every full block when `n >= 32`, else
`s + P5` (R145). -/
def head64 (P : Params) (B : List Byte) (s : U64) : Except Fault U64 :=
  if 32 ≤ B.length then do
    let v ← foldBlocks64 P .inp B (B.length / Config.block64) 0 (lanes64Init P s)
    pure (converge64 P v)
  else .ok (s + p64_5)

/-- `hash64(input, seed)` (R145): head, length, tail over the bytes after the last full block. -/
def hash64 (P : Params) (B : List Byte) (s : U64) : Except Fault U64 := do
  let n := B.length
  let h ← head64 P B s
  tail64 P .inp (h + trunc64 n) (B.drop (Config.block64 * (n / Config.block64)))

/-- HASH64 (R145). -/
def execHash64 (s : State) : Host.Outcome State Fault Refusal :=
  s.complete64 (hash64 Config.params s.opData s.opSeed)

end Sys2Proof.Machine
end

