-- ==== Sys2Proof/Machine/Stream.lean ====
section
/-! DEFINITION. The streaming half of the sub-block `xxhash64_engine` (spec/42_xxhash64_engine.md R150 to R155): the
commands over the context `ctx`. -/

namespace Sys2Proof.Machine

open Config (Params p64_5)

/-- The context after H64_INIT with seed `seed`; MEM is not cleared (R150). -/
def Ctx.start (P : Params) (c : Ctx) (seed : U64) : Ctx :=
  { c with
    st := .active
    v := lanes64Init P seed
    memsize := 0
    totalLen := 0
    large := largeAfterInit
    seed := seed }

/-- The context with a chunk of `n` bytes counted (R151). -/
def Ctx.count (c : Ctx) (n : Nat) : Ctx := { c with totalLen := c.totalLen + trunc64 n }

/-- `W`: the pending bytes, then the chunk (R152). -/
def Ctx.joined (c : Ctx) (chunk : List Byte) : Except Fault (List Byte) := do
  let pend ← bufTake c.mem 0 c.memsize
  pure (pend ++ chunk)

/-- Fold every full block of `W` into the lanes and keep the remainder in MEM (R152). -/
def Ctx.absorb (P : Params) (c : Ctx) (W : List Byte) : Except Fault Ctx := do
  let k := W.length / Config.block64
  let v ← foldBlocks64 P .built W k 0 c.v
  let rest := W.drop (Config.block64 * k)
  let mem ← bufStore c.mem 0 rest
  pure { c with v := v, mem := mem, memsize := Fin.ofNat 32 rest.length, large := largeAfterFold c.large k }

/-- The context after H64_UPDATE with this chunk: the length count (R151), then buffering and folding (R152). -/
def Ctx.update (P : Params) (c : Ctx) (chunk : List Byte) : Except Fault Ctx := do
  let W ← c.joined chunk
  (c.count chunk.length).absorb P W

/-- The result of H64_FINAL (R153). -/
def Ctx.result (P : Params) (c : Ctx) : Except Fault U64 := do
  let h := if c.large then converge64 P c.v else c.seed + p64_5
  let T ← bufTake c.mem 0 c.memsize
  tail64 P .built (h + c.totalLen) T

/-- The context after H64_FINAL: only STATE changes (R154). -/
def Ctx.finish (c : Ctx) : Ctx := { c with st := .done }

/-- H64_INIT, legal in every state (R150). -/
def execH64Init (s : State) : Host.Outcome State Fault Refusal :=
  (s.setCtx (s.ctx.start Config.params s.opSeed)).ret 0 0

/-- H64_UPDATE: STATE outside ACTIVE (R151, R155), else the updated context (R152). -/
def execH64Update (s : State) : Host.Outcome State Fault Refusal :=
  if s.ctx.st = .active then
    match s.ctx.update Config.params s.opData with
    | .ok c => (s.setCtx c).ret 0 0
    | .error f => .fault f
  else s.raise .state

/-- H64_FINAL: STATE outside ACTIVE (R153, R155), else the result and `ctx.STATE <- DONE` (R153, R154). -/
def execH64Final (s : State) : Host.Outcome State Fault Refusal :=
  if s.ctx.st = .active then
    (s.setCtx s.ctx.finish).complete64 (s.ctx.result Config.params)
  else s.raise .state

end Sys2Proof.Machine
end

