-- ==== Sys2Proof/Machine/Dispatch.lean ====
section
/-! DEFINITION. One arm per command of spec/opcode_table.json, each the meaning its rule gives it. -/

namespace Sys2Proof.Machine

def exec (i : Instr) (s : State) : Host.Outcome State Fault Refusal :=
  match i with
  | .hash32 => Sys2Proof.Machine.execHash32 s
  | .hash64 => Sys2Proof.Machine.execHash64 s
  | .hash128 => Sys2Proof.Machine.execHash128 s
  | .h64Init => Sys2Proof.Machine.execH64Init s
  | .h64Update => Sys2Proof.Machine.execH64Update s
  | .h64Final => Sys2Proof.Machine.execH64Final s
  | .rotl32 r => Sys2Proof.Machine.execRotl32 r s
  | .rotl64 r => Sys2Proof.Machine.execRotl64 r s
  | .bswap32 => Sys2Proof.Machine.execBswap32 s
  | .bswap64 => Sys2Proof.Machine.execBswap64 s
  | .aval64 => Sys2Proof.Machine.execAval64 s
  | .aval3 => Sys2Proof.Machine.execAval3 s
  | .rrmxmx => Sys2Proof.Machine.execRrmxmx s
  | .mul128fold64 => Sys2Proof.Machine.execMul128fold64 s
  | .mix16b k => Sys2Proof.Machine.execMix16b k s
  | .secretRd32 k => Sys2Proof.Machine.execSecretRd32 k s
  | .secretRd64 k => Sys2Proof.Machine.execSecretRd64 k s

end Sys2Proof.Machine
end

