-- ==== Sys2Proof/Machine/Step.lean ====
section
/-! DEFINITION. One step of XXH-CORE: one command of the host, captured, decoded, run to its response as one atomic
step (spec/30_encoding.md R60). -/

namespace Sys2Proof.Machine

/-- Run the captured command: a word that does not decode raises ILLEGAL (R201), before any check of its operands
(R205). That the machine goes on from it is DEDUCED (notes/assumptions/6.md). -/
def runCaptured (s : State) : Host.Outcome State Fault Refusal :=
  match decodeWord s.cmd.word with
  | .ok i => exec i s
  | .error _ => s.raise .illegal

/-- One step: while the host presents no command the block holds its state (R216, R228; DESIGN CHOICE,
notes/assumptions/4.md); a command that cannot be issued is refused (U13; DEDUCED, notes/assumptions/5.md); every other
command runs. -/
def step (s : State) : Host.Outcome State Fault Refusal :=
  match s.issue with
  | .idle => .next s
  | .tooLong => .refused .dataTooLong
  | .captured t => runCaptured t

/-- The state in which the host presents next the command word in the bits `w` of a table row of `nbits` bits, with
every operand omitted: 0 or the empty sequence (R73). The block fetches nothing (R21); the command interface is
where its next command comes from (R60). -/
def State.withFetchWord (s : State) (nbits w : Nat) : State :=
  { s with pending := { Command.none with word := BitVec.ofNat 32 (w % 2 ^ nbits) } :: s.pending }

end Sys2Proof.Machine
end

