-- ==== Sys2Proof/Safety.lean ====
section
/-! DEFINITION. The terms in which claims about XXH-CORE are stated: a safe state, the invariant of every step, when
two contexts are the same to every command, which operands a command reads, and the hash functions of the spec written
a second time, over total reads and as folds, independently of the machine's own text. -/

namespace Sys2Proof

open Machine

/-! ### Safe states -/

/-- A response of the form R62 and R200 allow: a code below 4, and LO = HI = 0 with an error (R204). -/
abbrev Machine.Response.wf (r : Response) : Prop := r.status.toNat < 4 ∧ (r.status ≠ 0 → r.lo = 0 ∧ r.hi = 0)

/-- What holds of `ctx` after every step: BUF is in canonical form, and in ACTIVE every pending byte has been
written, `MEMSIZE = TOTAL_LEN mod 32`, and LARGE is set once `TOTAL_LEN` has reached 32 (R24, R26). -/
abbrev Machine.Ctx.Inv (c : Ctx) : Prop :=
  c.mem.wf = true ∧
    (c.st = .active →
      (∀ k < c.memsize.val, (c.mem.get k).isSome = true) ∧ c.memsize.val = c.totalLen.toNat % 32 ∧
        (32 ≤ c.totalLen.toNat → c.large = true))

/-- The invariant of the machine: that of its context, and every response returned so far is well formed. -/
abbrev Machine.State.Inv (s : State) : Prop := s.ctx.Inv ∧ ∀ r ∈ s.responses, r.wf

/-- Two contexts no command can tell apart: the same STATE and, in ACTIVE, the same value in every field and in every
byte of MEM below MEMSIZE. The fields R34 and R22 leave unspecified are free. -/
abbrev Machine.Ctx.Same (c d : Ctx) : Prop :=
  c.st = d.st ∧
    (c.st = .active →
      c.v = d.v ∧ c.memsize = d.memsize ∧ c.totalLen = d.totalLen ∧ c.large = d.large ∧ c.seed = d.seed ∧
        ∀ k < c.memsize.val, c.mem.get k = d.mem.get k)

/-- Two states whose hosts see the same: the same commands to come, the same responses, contexts no command can tell
apart (R228, R32). -/
abbrev Machine.State.Same (s t : State) : Prop :=
  s.pending = t.pending ∧ s.responses = t.responses ∧ s.ctx.Same t.ctx

/-! ### Commands -/

/-- The commands that act on `ctx` (R217); every other command is a one-shot hash or a primitive. -/
def Instr.streaming : Instr → Bool
  | .h64Init | .h64Update | .h64Final => true
  | .hash32 | .hash64 | .hash128 | .rotl32 _ | .rotl64 _ | .bswap32 | .bswap64 | .aval64 | .aval3 | .rrmxmx
  | .mul128fold64 | .mix16b _ | .secretRd32 _ | .secretRd64 _ => false

/-- The opcodes of the map of R67. -/
def legalOpcodes : List Nat :=
  [0x01, 0x02, 0x03, 0x08, 0x09, 0x0A, 0x10, 0x11, 0x12, 0x13, 0x14, 0x15, 0x16, 0x17, 0x18, 0x19, 0x1A]

/-- The command reads the field R of its word (R66). -/
def Instr.readsR : Instr → Bool
  | .rotl32 _ | .rotl64 _ => true
  | .hash32 | .hash64 | .hash128 | .h64Init | .h64Update | .h64Final | .bswap32 | .bswap64 | .aval64 | .aval3
  | .rrmxmx | .mul128fold64 | .mix16b _ | .secretRd32 _ | .secretRd64 _ => false

/-- The command reads the field K of its word (R66). -/
def Instr.readsK : Instr → Bool
  | .mix16b _ | .secretRd32 _ | .secretRd64 _ => true
  | .hash32 | .hash64 | .hash128 | .h64Init | .h64Update | .h64Final | .rotl32 _ | .rotl64 _ | .bswap32 | .bswap64
  | .aval64 | .aval3 | .rrmxmx | .mul128fold64 => false

/-- A legal command word (R71). -/
abbrev legalWord (w : U32) : Prop :=
  w.extractLsb' 22 10 = 0 ∧ (w.extractLsb' 0 8).toNat ∈ legalOpcodes

/-- The words with opcode `opc` (R67) are the command `f` gives, and illegal when a bit of `CMD[31:22]` is set (R68). -/
abbrev encodedBy (opc : BitVec 8) (f : U32 → Instr) : Prop :=
  ∀ w : U32, w.extractLsb' 0 8 = opc →
    (w.extractLsb' 22 10 = 0 → decodeWord w = .ok (f w)) ∧
    (w.extractLsb' 22 10 ≠ 0 → decodeWord w = .error .reservedBits)

/-- The field R of a command word, `CMD[13:8]` (R63). -/
abbrev fieldR (w : U32) : Nat := (w.extractLsb' 8 6).toNat

/-- The field K of a command word, `CMD[21:14]` (R63). -/
abbrev fieldK (w : U32) : Nat := (w.extractLsb' 14 8).toNat

/-- The STATUS that the rules give a command word in a stream state: ILLEGAL first, then STATE, then RANGE (R200 to
R203, R205), read from the bits of the word. -/
def statusOf (st : StreamState) (w : U32) : BitVec 8 :=
  let opc := (w.extractLsb' 0 8).toNat
  let k := (w.extractLsb' 14 8).toNat
  if ¬ legalWord w then 1
  else if (opc = 0x09 ∨ opc = 0x0A) ∧ st ≠ .active then 2
  else if (opc = 0x18 ∧ 176 < k) ∨ (opc = 0x19 ∧ 188 < k) ∨ (opc = 0x1A ∧ 184 < k) then 3
  else 0

/-- Two commands agree on every operand field that the command `i` reads (the table of R66). -/
def agreeOn (i : Instr) (c d : Command) : Prop :=
  match i with
  | .hash32 => c.seed.extractLsb' 0 32 = d.seed.extractLsb' 0 32 ∧ c.data = d.data
  | .hash64 | .hash128 => c.seed = d.seed ∧ c.data = d.data
  | .h64Init => c.seed = d.seed
  | .h64Update => c.data = d.data
  | .h64Final | .secretRd32 _ | .secretRd64 _ => True
  | .rotl32 _ | .bswap32 => c.a.extractLsb' 0 32 = d.a.extractLsb' 0 32
  | .rotl64 _ | .bswap64 | .aval64 | .aval3 => c.a = d.a
  | .rrmxmx | .mul128fold64 => c.a = d.a ∧ c.b = d.b
  | .mix16b _ => c.seed = d.seed ∧ c.a = d.a ∧ c.b = d.b

/-- A command as the host writes it: the word of `i` and the operands (R73). -/
def commandOf (i : Instr) (seed a b : U64) (data : List Byte) : Command := ⟨encode i, seed, a, b, data⟩

/-- The commands that hash the chunks as one stream (R157). -/
def streamOf (seed : U64) (chunks : List (List Byte)) : List Command :=
  commandOf .h64Init seed 0 0 [] :: chunks.map (commandOf .h64Update 0 0 0)

/-! ### The spec's functions a second time -/

namespace Spec

/-- Byte `i` of a byte sequence (R7); 0 past its end, where no rule reads. -/
def byteAt (B : List Byte) (i : Nat) : Byte := B.getD i 0

/-- The four bytes from `i` on, the first the least significant (R41). -/
def word32At (B : List Byte) (i : Nat) : U32 := byteAt B (i + 3) ++ (byteAt B (i + 2) ++ (byteAt B (i + 1) ++ byteAt B i))

/-- The eight bytes from `i` on, the first the least significant (R41, R43). -/
def word64At (B : List Byte) (i : Nat) : U64 := word32At B (i + 4) ++ word32At B i

/-- K32[i] of the decided secret table (R42). -/
def K32 (i : Nat) : U32 := word32At Config.secretTable i

/-- K64[i] of the decided secret table (R42). -/
def K64 (i : Nat) : U64 := word64At Config.secretTable i

/-- The four bytes of a word in the other order (R82). -/
def swap32 (v : U32) : U32 := v.extractLsb' 0 8 ++ (v.extractLsb' 8 8 ++ (v.extractLsb' 16 8 ++ v.extractLsb' 24 8))

/-- The eight bytes of a word in the other order (R83). -/
def swap64 (v : U64) : U64 := swap32 (v.extractLsb' 0 32) ++ swap32 (v.extractLsb' 32 32)

/-- The decided fold by the law of R89: the truncated product plus the product of the high halves. -/
@[irreducible] def fold (a b : U64) : U64 := a * b + (a >>> 32) * (b >>> 32)

/-- `avalanche64` (R84). -/
@[irreducible] def aval64 (h : U64) : U64 :=
  let x := (h ^^^ h >>> 33) * 0xC2B2AE3D27D4EB4F
  let y := (x ^^^ x >>> 29) * 0x165667B19E3779F9
  y ^^^ y >>> 32

/-- `avalanche3` (R85). -/
@[irreducible] def aval3 (h : U64) : U64 :=
  let x := (h ^^^ h >>> 37) * 0x165667919E3779F9
  x ^^^ x >>> 32

/-- `rrmxmx` (R86). -/
@[irreducible] def rrmxmx (h len : U64) : U64 :=
  let x := (h ^^^ (h.rotateLeft 49 ^^^ h.rotateLeft 24)) * 0x9FB21C651E98DF25
  let y := (x ^^^ (x >>> 35 + len)) * 0x9FB21C651E98DF25
  y ^^^ y >>> 28

/-- Lane update of the 32-bit engine (R120). -/
@[irreducible] def round32 (acc w : U32) : U32 := (acc + w * 2246822519).rotateLeft 13 * 2654435761

/-- A lane after every full block: it starts at `init` and takes the word at `4 * (j - 1)` of each block (R122,
R127). -/
def lane32 (B : List Byte) (init : U32) (at_ : Nat) : U32 :=
  (List.range (B.length / 16)).foldl (fun acc i => round32 acc (word32At B (16 * i + at_))) init

/-- The 32-bit hash (R125). -/
def hash32 (B : List Byte) (s : U32) : U32 :=
  let n := B.length
  let h :=
    if n < 16 then s + 374761393
    else
      (lane32 B (s + 2654435761 + 2246822519) 0).rotateLeft 1 + (lane32 B (s + 2246822519) 4).rotateLeft 7 +
        (lane32 B s 8).rotateLeft 12 + (lane32 B (s - 2654435761) 12).rotateLeft 18
  let h := h + BitVec.ofNat 32 n
  let h := (List.range (n % 16 / 4)).foldl
    (fun h i => (h + word32At B (16 * (n / 16) + 4 * i) * 3266489917).rotateLeft 17 * 668265263) h
  let h := (List.range (n % 4)).foldl
    (fun h i => (h + (byteAt B (4 * (n / 4) + i)).setWidth 32 * 374761393).rotateLeft 11 * 2654435761) h
  let h := (h ^^^ h >>> 15) * 2246822519
  let h := (h ^^^ h >>> 13) * 3266489917
  h ^^^ h >>> 16

/-- Lane update of the 64-bit engine (R140). -/
@[irreducible] def round64 (acc w : U64) : U64 := (acc + w * 14029467366897019727).rotateLeft 31 * 11400714785074694791

/-- One merge-round (R141). -/
@[irreducible] def merge64 (h v : U64) : U64 := (h ^^^ round64 0 v) * 11400714785074694791 + 9650029242287828579

/-- A lane after the first `k` blocks of `B`: it starts at `init` and takes the word at `8 * (j - 1)` of each block
(R145, R152). -/
def lane64 (B : List Byte) (k : Nat) (init : U64) (at_ : Nat) : U64 :=
  (List.range k).foldl (fun acc i => round64 acc (word64At B (32 * i + at_))) init

/-- The four lanes after the first `k` blocks of `B`. -/
def lanes64 (B : List Byte) (k : Nat) (v : Lanes64) : Lanes64 :=
  ⟨lane64 B k v.v1 0, lane64 B k v.v2 8, lane64 B k v.v3 16, lane64 B k v.v4 24⟩

/-- The lanes a seed starts with (R142). -/
def lanesOf (s : U64) : Lanes64 :=
  ⟨s + 11400714785074694791 + 14029467366897019727, s + 14029467366897019727, s, s - 11400714785074694791⟩

/-- The lanes combined and merge-rounded (R143). -/
def converge64 (v : Lanes64) : U64 :=
  merge64 (merge64 (merge64 (merge64
    (v.v1.rotateLeft 1 + v.v2.rotateLeft 7 + v.v3.rotateLeft 12 + v.v4.rotateLeft 18) v.v1) v.v2) v.v3) v.v4

/-- The tail: 8-byte words, at most one 4-byte word, single bytes, the avalanche (R144). -/
def tail64 (h : U64) (T : List Byte) : U64 :=
  let m := T.length
  let h := (List.range (m / 8)).foldl
    (fun h i => (h ^^^ round64 0 (word64At T (8 * i))).rotateLeft 27 * 11400714785074694791 + 9650029242287828579) h
  let h :=
    if m % 8 < 4 then h
    else (h ^^^ (word32At T (8 * (m / 8))).setWidth 64 * 11400714785074694791).rotateLeft 23 *
      14029467366897019727 + 1609587929392839161
  let h := (List.range (m % 4)).foldl
    (fun h i => (h ^^^ (byteAt T (4 * (m / 4) + i)).setWidth 64 * 2870177450012600261).rotateLeft 11 *
      11400714785074694791) h
  aval64 h

/-- The 64-bit hash (R145). -/
def hash64 (B : List Byte) (s : U64) : U64 :=
  let n := B.length
  let h := if n < 32 then s + 2870177450012600261 else converge64 (lanes64 B (n / 32) (lanesOf s))
  tail64 (h + BitVec.ofNat 64 n) (B.drop (32 * (n / 32)))

/-- `mix16B` at input offset `p` and secret offset `so`, with the decided table and fold (R88). -/
def mix (B : List Byte) (s : U64) (p so : Nat) : U64 :=
  fold (word64At B p ^^^ (K64 so + s)) (word64At B (p + 8) ^^^ (K64 (so + 8) - s))

/-- The 32x32 cross-multiply-add mixer (R177). -/
@[irreducible] def mix32 (w k : U64) : U64 :=
  (w &&& 4294967295#64) * (k &&& 4294967295#64) + (w >>> 32) * (k >>> 32)

/-- The eight words of the stripe at `off`, mixed with the secret words plus `pert` and added up (R178). -/
def stripeSum (B : List Byte) (off : Nat) (pert : U64) : U64 :=
  ((List.range 8).map fun j => mix32 (word64At B (off + 8 * j)) (K64 (8 * j) + pert)).sum

/-- An accumulator of the long path before its avalanche, from the start value `init`; `one` is 0 for the low and 1
for the high accumulator (R178). -/
def longSum (B : List Byte) (s init one : U64) : U64 :=
  let n := B.length
  init + ((List.range (n / 64)).map fun i => stripeSum B (64 * i) (s + 64 * BitVec.ofNat 64 i + one)).sum +
    (if n % 64 = 0 then 0 else stripeSum B (n - 64) (s + one))

/-- Class C0 (R171). -/
def h128C0 (s : U64) : U64 × U64 := (aval64 (s ^^^ (K64 56 ^^^ K64 64)), aval64 (s ^^^ (K64 72 ^^^ K64 80)))

/-- Class C1_3: the middle byte, the first byte, the length and the last byte side by side (R172). -/
def h128C1to3 (B : List Byte) (s : U64) : U64 × U64 :=
  let n := B.length
  let c : U32 := byteAt B (n / 2) ++ (byteAt B 0 ++ (BitVec.ofNat 8 n ++ byteAt B (n - 1)))
  let base : U64 := (K32 0 ^^^ K32 4).setWidth 64
  (aval64 (c.setWidth 64 ^^^ (base + s)), aval64 (c.setWidth 64 ^^^ (base - s)))

/-- Class C4_8: the first word above the last one (R173). -/
def h128C4to8 (B : List Byte) (s : U64) : U64 × U64 :=
  let n := B.length
  let s4 : U64 := s ^^^ (swap32 (s.extractLsb' 0 32) ++ 0#32)
  let w : U64 := word32At B 0 ++ word32At B (n - 4)
  (rrmxmx (w ^^^ ((K64 8 ^^^ K64 16) - s4)) (BitVec.ofNat 64 n),
    rrmxmx (w ^^^ ((K64 24 ^^^ K64 32) + s4)) (BitVec.ofNat 64 n))

/-- Class C9_16 (R174). -/
def h128C9to16 (B : List Byte) (s : U64) : U64 × U64 :=
  let n := B.length
  let lo := word64At B 0 ^^^ ((K64 24 ^^^ K64 32) + s)
  let hi := word64At B (n - 8) ^^^ ((K64 40 ^^^ K64 48) - s)
  (aval3 (BitVec.ofNat 64 n + swap64 lo + hi + fold lo hi), aval3 (BitVec.ofNat 64 n + swap64 hi + lo + fold lo hi))

/-- Class C17_128: the tiers `t` with `n > 32 * t` (R175). -/
def h128C17to128 (B : List Byte) (s : U64) : U64 × U64 :=
  let n := B.length
  let tiers := List.range ((n + 31) / 32)
  (aval3 (BitVec.ofNat 64 n * 11400714785074694791 +
      (tiers.map fun t => mix B s (16 * t) (32 * t) + mix B s (n - 16 * (t + 1)) (32 * t + 16)).sum),
    aval3 (tiers.map fun t => mix B s (n - 16 * (t + 1)) (32 * t) + mix B s (16 * t) (32 * t + 16)).sum)

/-- Class C129_240 (R176). -/
def h128C129to240 (B : List Byte) (s : U64) : U64 × U64 :=
  let n := B.length
  (aval3 (BitVec.ofNat 64 n * 11400714785074694791 + ((List.range 8).map fun i => mix B s (16 * i) (16 * i)).sum),
    aval3 (((List.range (n / 16 - 8)).map fun i => mix B s (16 * (i + 8)) (16 * i + 3)).sum + mix B s (n - 16) 119))

/-- Class C241 (R178). -/
def h128C241 (B : List Byte) (s : U64) : U64 × U64 :=
  (aval3 (longSum B s (BitVec.ofNat 64 B.length * 11400714785074694791) 0),
    aval3 (longSum B s (BitVec.ofNat 64 B.length * 14029467366897019727) 1))

/-- The 128-bit hash: the class of the length decides (R170, R179). -/
def hash128 (B : List Byte) (s : U64) : U64 × U64 :=
  let n := B.length
  if n = 0 then h128C0 s
  else if n ≤ 3 then h128C1to3 B s
  else if n ≤ 8 then h128C4to8 B s
  else if n ≤ 16 then h128C9to16 B s
  else if n ≤ 128 then h128C17to128 B s
  else if n ≤ 240 then h128C129to240 B s
  else h128C241 B s

end Spec

/-! ### The context along a stream -/

/-- The context of a stream that started with seed `s` and has taken the bytes `B` so far: the four facts in the
argument of R157. -/
structure Machine.Ctx.Holds (c : Ctx) (B : List Byte) (s : U64) : Prop where
  active : c.st = .active
  /-- The lanes have folded exactly the full blocks of `B`, in order. -/
  lanes : c.v = Spec.lanes64 B (B.length / 32) (Spec.lanesOf s)
  /-- `MEM[0..MEMSIZE)` is the last `len(B) mod 32` bytes of `B`. -/
  size : c.memsize.val = B.length % 32
  pend : ∀ k < B.length % 32, c.mem.get k = B[32 * (B.length / 32) + k]?
  /-- `TOTAL_LEN = len(B)`, modulo 2^64. -/
  total : c.totalLen = BitVec.ofNat 64 B.length
  /-- `LARGE = 1` exactly when `len(B) >= 32`. -/
  flag : c.large = decide (32 ≤ B.length)
  seed : c.seed = s

end Sys2Proof
end

