-- ==== Sys2Proof/Certificates/Slice0/Obligations.lean ====
section
/-! DEFINITION. The statements about XXH-CORE for the provers, from the numbered rules of spec/. -/

open Sys2Proof Sys2Proof.Machine

/-! ### The command interface and the encoding -/

/-- A step captures the host's next command, and runs what its word decodes to (spec/30_encoding.md R60). -/
def Obligations.StepRunsTheDecodedCommand : Prop :=
  ∀ (s : State) (c : Command) (rest : List Command) (i : Instr),
    s.pending = c :: rest → c.data.length < 2 ^ 64 → decodeWord c.word = .ok i → step s = exec i (s.capture c rest)

/-- Every illegal word, opcode 0x04 among them, raises ILLEGAL whatever the context holds, and has no other effect (R68, R69,
R201; code 1 by R200, LO = HI = 0 by R204). That the machine goes on from it in a next state, where R69, R201 and U4 say
that a model refuses the word, is the model's reading: DEDUCED, notes/assumptions/6.md. -/
def Obligations.IllegalWordRaisesIllegal : Prop :=
  ∀ (s : State) (c : Command) (rest : List Command),
    s.pending = c :: rest → c.data.length < 2 ^ 64 → ¬ legalWord c.word →
      step s = .next ((s.capture c rest).respond ⟨1, 0, 0⟩)

/-- R71: the words that decode are exactly the legal ones, and decoding ignores bits 21 to 8 but for the R or K field of
a command that reads it. -/
def Obligations.LegalWordsAreExactly : Prop :=
  (∀ w : U32, (∃ i, decodeWord w = .ok i) ↔ legalWord w) ∧
    ∀ (w w' : U32) (i : Instr), decodeWord w = .ok i →
      w'.extractLsb' 0 8 = w.extractLsb' 0 8 → w'.extractLsb' 22 10 = w.extractLsb' 22 10 →
      (i.readsR = true → w'.extractLsb' 8 6 = w.extractLsb' 8 6) →
      (i.readsK = true → w'.extractLsb' 14 8 = w.extractLsb' 14 8) → decodeWord w' = .ok i

/-- Decode and encode agree: every well-formed command is read back from its word, with every R and K. -/
def Obligations.DecodeOfEncode : Prop :=
  ∀ i : Instr, i.wellFormed = true → decodeWord (encode i) = .ok i

/-- The other direction: a word that decodes gives a well-formed command whose own word agrees with it in the opcode, in
the reserved bits and in every field the command reads. -/
def Obligations.EncodeOfDecode : Prop :=
  ∀ (w : U32) (i : Instr), decodeWord w = .ok i →
    i.wellFormed = true ∧ (encode i).extractLsb' 0 8 = w.extractLsb' 0 8 ∧
      (encode i).extractLsb' 22 10 = w.extractLsb' 22 10 ∧
      (i.readsR = true → (encode i).extractLsb' 8 6 = w.extractLsb' 8 6) ∧
      (i.readsK = true → (encode i).extractLsb' 14 8 = w.extractLsb' 14 8)

/-- Words written out from the encodings of R63 and R67, one or two for each sub-block, and two that are illegal. -/
def Obligations.WordsDecodeAsWritten : Prop :=
  decodeWord 0b00000000000000000000000000000001#32 = .ok .hash32 ∧
  decodeWord 0b00000000000000000000000000000010#32 = .ok .hash64 ∧
  decodeWord 0b00000000000000000000000000000011#32 = .ok .hash128 ∧
  decodeWord 0b00000000000000000000000000001001#32 = .ok .h64Update ∧
  decodeWord 0b00000000000000000011000100010001#32 = .ok (.rotl64 49) ∧
  decodeWord 0b00000000001011000100000000011000#32 = .ok (.mix16b 177) ∧
  decodeWord 0b00000000000011100000000000011010#32 = .ok (.secretRd64 56) ∧
  decodeWord 0b00000000000000000000000000000100#32 = .error .reservedForHash3 ∧
  decodeWord 0b00000000010000000000000000000001#32 = .error .reservedBits

/-- What reset leaves: STATE is IDLE (R34), no command is waiting or answered, and from there the two streaming
commands raise STATE (R155). The values of the other fields are the model's (notes/assumptions/1.md) and not stated. -/
def Obligations.ResetLeavesTheStreamIdle : Prop :=
  State.reset.ctx.st = .idle ∧ State.reset.pending = [] ∧ State.reset.responses = [] ∧
    exec .h64Update State.reset = .next (State.reset.respond ⟨2, 0, 0⟩) ∧
    exec .h64Final State.reset = .next (State.reset.respond ⟨2, 0, 0⟩)

/-- R220: a reset in any state abandons the stream, sets STATE to IDLE and returns no response; to every command the
context is then the same as after the first reset. -/
def Obligations.ResetAbandonsTheStream : Prop :=
  ∀ s : State, s.resetBlock.ctx.st = .idle ∧ s.resetBlock.ctx.Same State.reset.ctx ∧
    s.resetBlock.responses = s.responses ∧ s.resetBlock.pending = s.pending ∧
    ∀ t : State, t.pending = s.pending → t.responses = s.responses → t.ctx = State.reset.ctx → s.resetBlock.Same t

/-! ### Every step -/

/-- The invariant holds after reset. -/
def Obligations.InvariantAtReset : Prop := State.reset.Inv

/-- Every step keeps the invariant: BUF in canonical form, every pending byte written, MEMSIZE = TOTAL_LEN mod 32, LARGE set
from 32 bytes on, every response of a form R62 allows. -/
def Obligations.StepKeepsTheInvariant : Prop :=
  ∀ s t : State, s.Inv → step s = .next t → t.Inv

/-- From a state that meets the invariant no step faults: with no command presented the block holds its state; every
command that can be issued is taken and gets exactly one response; one with 2^64 bytes or more cannot be issued. The
first is the model's choice (notes/assumptions/4.md); that a word which does not decode is answered too, and the refusal
of the last, are DEDUCED (notes/assumptions/6.md and 5.md). -/
def Obligations.EveryCommandIsAnswered : Prop :=
  ∀ s : State, s.Inv →
    (s.pending = [] → step s = .next s) ∧
    ∀ (c : Command) (rest : List Command), s.pending = c :: rest →
      (c.data.length < 2 ^ 64 →
        ∃ t r, step s = .next t ∧ t.cmd = c ∧ t.pending = rest ∧ t.responses = s.responses ++ [r]) ∧
      (2 ^ 64 ≤ c.data.length → step s = .refused .dataTooLong)

/-- The STATUS of every command, read from the bits of its word and from the stream state (R200 to R203, R205). That a word
which does not decode is answered at all, with a next state and STATUS 1, is the model's reading: DEDUCED,
notes/assumptions/6.md. -/
def Obligations.StatusOfEveryCommand : Prop :=
  ∀ (s : State) (c : Command) (rest : List Command), s.Inv → s.pending = c :: rest → c.data.length < 2 ^ 64 →
    ∃ t r, step s = .next t ∧ t.responses = s.responses ++ [r] ∧ r.status = statusOf s.ctx.st c.word

/-- R204: a command that raises an error has no effect but its response, whose LO and HI are 0. -/
def Obligations.ErrorHasNoEffect : Prop :=
  ∀ (s t : State) (c : Command) (rest : List Command) (r : Response),
    s.pending = c :: rest → step s = .next t → t.responses = s.responses ++ [r] → r.status ≠ 0 →
      t = (s.capture c rest).respond ⟨r.status, 0, 0⟩

/-- R156: the transitions of `ctx.STATE`; every other pair of state and command leaves `ctx` unchanged. -/
def Obligations.StreamTransitions : Prop :=
  ∀ (s t : State) (c : Command) (rest : List Command), s.pending = c :: rest → step s = .next t →
    (decodeWord c.word = .ok .h64Init → t.ctx.st = .active) ∧
    (decodeWord c.word = .ok .h64Update → s.ctx.st = .active → t.ctx.st = .active) ∧
    (decodeWord c.word = .ok .h64Final → s.ctx.st = .active → t.ctx.st = .done) ∧
    (decodeWord c.word ≠ .ok .h64Init → s.ctx.st ≠ .active → t.ctx = s.ctx) ∧
    (decodeWord c.word ≠ .ok .h64Init → decodeWord c.word ≠ .ok .h64Update → decodeWord c.word ≠ .ok .h64Final →
      t.ctx = s.ctx)

/-- The shape of a response (R62): a 32-bit result is zero-extended, H64_INIT and H64_UPDATE answer LO = 0, and only
HASH128 has a HI. -/
def Obligations.ResponseShape : Prop :=
  ∀ (i : Instr) (s t : State) (r : Response), exec i s = .next t → t.responses = s.responses ++ [r] →
    (i ≠ .hash128 → r.hi = 0) ∧
    ((i = .hash32 ∨ i = .bswap32 ∨ (∃ n, i = .rotl32 n) ∨ ∃ k, i = .secretRd32 k) → r.lo.toNat < 2 ^ 32) ∧
    (i = .h64Init ∨ i = .h64Update → r.lo = 0)

/-- The frame of the one-shot hashes and the primitives (R33): nothing of `ctx` changes, no byte of MEM, nothing of the
commands to come; one response is added. -/
def Obligations.OneShotFrame : Prop :=
  ∀ (i : Instr) (s t : State), i.streaming = false → exec i s = .next t →
    t.ctx = s.ctx ∧ (∀ off, t.ctx.mem.get off = s.ctx.mem.get off) ∧ t.cmd = s.cmd ∧ t.pending = s.pending ∧
      ∃ r, t.responses = s.responses ++ [r]

/-- The frames of the streaming commands (R150, R152, R154, R155). H64_UPDATE stores to the offsets below its new MEMSIZE,
which is (MEMSIZE + chunk length) mod 32; H64_INIT and H64_FINAL store nothing. -/
def Obligations.StreamFrame : Prop :=
  ∀ (i : Instr) (s t : State), i.streaming = true → exec i s = .next t →
    t.cmd = s.cmd ∧ t.pending = s.pending ∧ (∃ r, t.responses = s.responses ++ [r]) ∧
    (i = .h64Init → ∀ off, t.ctx.mem.get off = s.ctx.mem.get off) ∧
    (i = .h64Update →
      (s.ctx.st ≠ .active → t.ctx = s.ctx) ∧ t.ctx.st = s.ctx.st ∧ t.ctx.seed = s.ctx.seed ∧
      ∀ off, (s.ctx.memsize.val + s.cmd.data.length) % 32 ≤ off → t.ctx.mem.get off = s.ctx.mem.get off) ∧
    (i = .h64Final →
      (s.ctx.st ≠ .active → t.ctx = s.ctx) ∧ t.ctx.v = s.ctx.v ∧ t.ctx.memsize = s.ctx.memsize ∧
      t.ctx.totalLen = s.ctx.totalLen ∧ t.ctx.large = s.ctx.large ∧ t.ctx.seed = s.ctx.seed ∧
      ∀ off, t.ctx.mem.get off = s.ctx.mem.get off)

/-- A command's response and its effect on `ctx` depend on the operand fields it reads, and for the streaming commands on
`ctx`; a field it does not use is ignored, and a one-shot command does not see `ctx` (R61, R66, R158, R33). -/
def Obligations.CommandsReadOnlyTheirOperands : Prop :=
  ∀ (i : Instr) (s t s' : State), agreeOn i s.cmd t.cmd → (i.streaming = true → s.ctx = t.ctx) →
    exec i s = .next s' →
      ∃ t' r, exec i t = .next t' ∧ s'.responses = s.responses ++ [r] ∧ t'.responses = t.responses ++ [r] ∧
        (i.streaming = true → s'.ctx = t'.ctx)

/-- No step depends on a field of `ctx` that the spec leaves unspecified (R34, R155, R32): two states whose hosts see the same
go on to states whose hosts see the same, and stop alike. -/
def Obligations.UnspecifiedFieldsNeverMatter : Prop :=
  ∀ s t : State, s.Same t →
    (∀ s', step s = .next s' → ∃ t', step t = .next t' ∧ s'.Same t') ∧
    (∀ f, step s = .fault f → step t = .fault f) ∧ (∀ f, step s = .refused f → step t = .refused f)

/-! ### Byte spaces -/

/-- R43: an 8-byte read is two 4-byte reads, the first its low half, and a 1-byte read is the byte. -/
def Obligations.MixedWidthReadsAgree : Prop :=
  ∀ (sp : Space) (B : List Byte) (i : Nat),
    (i + 8 ≤ B.length → ∃ w, le64 sp B i = .ok w ∧ le32 sp B i = .ok (w.extractLsb' 0 32) ∧
      le32 sp B (i + 4) = .ok (w.extractLsb' 32 32)) ∧
    ∀ h : i < B.length, read8 sp B i = .ok B[i]

/-- A read at any offset answers the little-endian sum of its bytes (R41, R45), and one that leaves its space faults and
answers no value (R46). -/
def Obligations.ReadsAreLittleEndianAndBounded : Prop :=
  ∀ (sp : Space) (B : List Byte) (i w : Nat),
    (i + w ≤ B.length →
      memRead sp B i w = .ok ((List.range w).map fun k => (B.getD (i + k) 0).toNat * 2 ^ (8 * k)).sum) ∧
    (B.length < i + w → memRead sp B i w = .error (.readOutOfBounds sp i w))

/-- The store into BUF (R47): the bytes stored are read back, every other byte reads as before, the canonical form is kept,
and a store past the 32 bytes of BUF faults. -/
def Obligations.BufferStoreAndReadBack : Prop :=
  ∀ (m : Memory) (off : Nat) (bs : List Byte), m.wf = true →
    (off + bs.length ≤ 32 →
      ∃ m', bufStore m off bs = .ok m' ∧ m'.wf = true ∧ bufTake m' off bs.length = .ok bs ∧
        ∀ k, (k < off ∨ off + bs.length ≤ k) → m'.get k = m.get k) ∧
    (32 < off + bs.length → bufStore m off bs = .error (.writeOutOfBounds off bs.length))

/-! ### The mixing primitives -/

/-- R90, R91: the rotates, by `r` modulo the width; ROTL32 ignores A[63:32]. -/
def Obligations.RotateCommands : Prop :=
  encodedBy 0x10 (fun w => .rotl32 (fieldR w)) ∧ encodedBy 0x11 (fun w => .rotl64 (fieldR w)) ∧
  ∀ (r : Nat) (s : State),
    exec (.rotl32 r) s = .next (s.respond ⟨0, ((s.cmd.a.extractLsb' 0 32).rotateLeft (r % 32)).setWidth 64, 0⟩) ∧
    exec (.rotl64 r) s = .next (s.respond ⟨0, s.cmd.a.rotateLeft (r % 64), 0⟩)

/-- The laws of the rotates (R89). -/
def Obligations.RotationsCompose : Prop :=
  (∀ (v : U32) (a b : Nat), rotl32 v 0 = v ∧ rotl32 (rotl32 v a) b = rotl32 v (a + b)) ∧
  (∀ (v : U64) (a b : Nat), rotl64 v 0 = v ∧ rotl64 (rotl64 v a) b = rotl64 v (a + b))

/-- R92, R93: byte k of the result is byte 3 - k of A[31:0], or byte 7 - k of A. -/
def Obligations.ByteReversalCommands : Prop :=
  encodedBy 0x12 (fun _ => .bswap32) ∧ encodedBy 0x13 (fun _ => .bswap64) ∧
  ∀ s : State, ∃ (x : U32) (y : U64),
    exec .bswap32 s = .next (s.respond ⟨0, x.setWidth 64, 0⟩) ∧ exec .bswap64 s = .next (s.respond ⟨0, y, 0⟩) ∧
    (∀ k < 4, x.extractLsb' (8 * k) 8 = s.cmd.a.extractLsb' (8 * (3 - k)) 8) ∧
    (∀ k < 8, y.extractLsb' (8 * k) 8 = s.cmd.a.extractLsb' (8 * (7 - k)) 8)

/-- Byte reversal twice is the identity (R89). -/
def Obligations.ByteReversalTwice : Prop :=
  (∀ v : U32, bswap32 (bswap32 v) = v) ∧ ∀ v : U64, bswap64 (bswap64 v) = v

/-- R94, R95: the two avalanche finalizers of A, with their corner cases and examples. -/
def Obligations.AvalancheCommands : Prop :=
  encodedBy 0x14 (fun _ => .aval64) ∧ encodedBy 0x15 (fun _ => .aval3) ∧
  (∀ s : State, exec .aval64 s = .next (s.respond ⟨0, Spec.aval64 s.cmd.a, 0⟩) ∧
    exec .aval3 s = .next (s.respond ⟨0, Spec.aval3 s.cmd.a, 0⟩)) ∧
  avalanche64 0#64 = 0#64 ∧ avalanche3 0#64 = 0#64 ∧
  avalanche64 0x27D4EB2F165667C5#64 = 0xEF46DB3751D8E999#64 ∧ avalanche3 1#64 = 0x1656679188611E68#64

/-- Both avalanche finalizers are bijections on u64 (R89). -/
def Obligations.AvalanchesAreBijections : Prop :=
  Function.Bijective avalanche64 ∧ Function.Bijective avalanche3

/-- R96: RRMXMX of A and B, with its corner cases and example. -/
def Obligations.RrmxmxCommand : Prop :=
  encodedBy 0x16 (fun _ => .rrmxmx) ∧
  (∀ s : State, exec .rrmxmx s = .next (s.respond ⟨0, Spec.rrmxmx s.cmd.a s.cmd.b, 0⟩)) ∧
  rrmxmx 0#64 0#64 = 0#64 ∧ rrmxmx 0#64 4#64 = 0x7EC8719396E465D3#64 ∧ rrmxmx 1#64 8#64 = 0x1C046A424EED09B1#64

/-- MUL128FOLD64 in the decided mode SUM answers the truncated product plus the product of the high halves (R97 by the law
of R89). -/
def Obligations.Mul128Fold64Command : Prop :=
  encodedBy 0x17 (fun _ => .mul128fold64) ∧
  ∀ s : State,
    exec .mul128fold64 s = .next (s.respond ⟨0, s.cmd.a * s.cmd.b + (s.cmd.a >>> 32) * (s.cmd.b >>> 32), 0⟩)

/-- The laws of the fold under either FOLD_MODE, and where the two modes agree (R89). -/
def Obligations.FoldLaws : Prop :=
  (∀ (P : Config.Params) (a b : U64), mul128Fold64 P a b = mul128Fold64 P b a ∧ mul128Fold64 P 0 b = 0) ∧
  ∀ (P Q : Config.Params) (a b : U64), a.toNat * b.toNat < 2 ^ 64 → mul128Fold64 P a b = mul128Fold64 Q a b

/-- R98: MIX16B for every K it accepts; a larger K raises RANGE. -/
def Obligations.Mix16bCommand : Prop :=
  encodedBy 0x18 (fun w => .mix16b (fieldK w)) ∧
  ∀ (k : Nat) (s : State),
    (k ≤ 176 → exec (.mix16b k) s = .next (s.respond
      ⟨0, Spec.fold (s.cmd.a ^^^ (Spec.K64 k + s.cmd.seed)) (s.cmd.b ^^^ (Spec.K64 (k + 8) - s.cmd.seed)), 0⟩)) ∧
    (176 < k → exec (.mix16b k) s = .next (s.respond ⟨3, 0, 0⟩))

/-- R99, R100: the secret reads for every K they accept; a larger K raises RANGE. -/
def Obligations.SecretReadCommands : Prop :=
  encodedBy 0x19 (fun w => .secretRd32 (fieldK w)) ∧ encodedBy 0x1A (fun w => .secretRd64 (fieldK w)) ∧
  ∀ (k : Nat) (s : State),
    (k ≤ 188 → exec (.secretRd32 k) s = .next (s.respond ⟨0, (Spec.K32 k).setWidth 64, 0⟩)) ∧
    (188 < k → exec (.secretRd32 k) s = .next (s.respond ⟨3, 0, 0⟩)) ∧
    (k ≤ 184 → exec (.secretRd64 k) s = .next (s.respond ⟨0, Spec.K64 k, 0⟩)) ∧
    (184 < k → exec (.secretRd64 k) s = .next (s.respond ⟨3, 0, 0⟩))

/-! ### The one-shot hashes -/

/-- R125: HASH32 of every DATA and seed completes with the 32-bit hash, zero-extended. -/
def Obligations.Hash32Command : Prop :=
  encodedBy 0x01 (fun _ => .hash32) ∧
  ∀ s : State, exec .hash32 s =
    .next (s.respond ⟨0, (Spec.hash32 s.cmd.data (s.cmd.seed.extractLsb' 0 32)).setWidth 64, 0⟩)

/-- The lanes of the 32-bit engine are independent (R127): lane j after k blocks depends on its start and on word j of each
block. -/
def Obligations.LanesAreIndependent : Prop :=
  ∀ (B B' : List Byte) (k : Nat) (v v' : Lanes32), 16 * k ≤ B.length → 16 * k ≤ B'.length →
    ∃ w w', foldBlocks32 B k 0 v = .ok w ∧ foldBlocks32 B' k 0 v' = .ok w' ∧
      (v.v1 = v'.v1 → (∀ i < k, Spec.word32At B (16 * i) = Spec.word32At B' (16 * i)) → w.v1 = w'.v1) ∧
      (v.v2 = v'.v2 → (∀ i < k, Spec.word32At B (16 * i + 4) = Spec.word32At B' (16 * i + 4)) → w.v2 = w'.v2) ∧
      (v.v3 = v'.v3 → (∀ i < k, Spec.word32At B (16 * i + 8) = Spec.word32At B' (16 * i + 8)) → w.v3 = w'.v3) ∧
      (v.v4 = v'.v4 → (∀ i < k, Spec.word32At B (16 * i + 12) = Spec.word32At B' (16 * i + 12)) → w.v4 = w'.v4)

/-- R145: HASH64 of every DATA and seed completes with the 64-bit hash. -/
def Obligations.Hash64Command : Prop :=
  encodedBy 0x02 (fun _ => .hash64) ∧
  ∀ s : State, exec .hash64 s = .next (s.respond ⟨0, Spec.hash64 s.cmd.data s.cmd.seed, 0⟩)

/-- R171: HASH128 of the empty input. -/
def Obligations.Hash128OfNothing : Prop :=
  ∀ s : State, s.cmd.data = [] →
    exec .hash128 s = .next (s.respond ⟨0, (Spec.h128C0 s.cmd.seed).1, (Spec.h128C0 s.cmd.seed).2⟩)

/-- R172: HASH128 of 1 to 3 bytes. -/
def Obligations.Hash128Of1To3 : Prop :=
  ∀ s : State, 1 ≤ s.cmd.data.length → s.cmd.data.length ≤ 3 →
    exec .hash128 s = .next (s.respond
      ⟨0, (Spec.h128C1to3 s.cmd.data s.cmd.seed).1, (Spec.h128C1to3 s.cmd.data s.cmd.seed).2⟩)

/-- R173: HASH128 of 4 to 8 bytes. -/
def Obligations.Hash128Of4To8 : Prop :=
  ∀ s : State, 4 ≤ s.cmd.data.length → s.cmd.data.length ≤ 8 →
    exec .hash128 s = .next (s.respond
      ⟨0, (Spec.h128C4to8 s.cmd.data s.cmd.seed).1, (Spec.h128C4to8 s.cmd.data s.cmd.seed).2⟩)

/-- R174: HASH128 of 9 to 16 bytes. -/
def Obligations.Hash128Of9To16 : Prop :=
  ∀ s : State, 9 ≤ s.cmd.data.length → s.cmd.data.length ≤ 16 →
    exec .hash128 s = .next (s.respond
      ⟨0, (Spec.h128C9to16 s.cmd.data s.cmd.seed).1, (Spec.h128C9to16 s.cmd.data s.cmd.seed).2⟩)

/-- R175: HASH128 of 17 to 128 bytes. -/
def Obligations.Hash128Of17To128 : Prop :=
  ∀ s : State, 17 ≤ s.cmd.data.length → s.cmd.data.length ≤ 128 →
    exec .hash128 s = .next (s.respond
      ⟨0, (Spec.h128C17to128 s.cmd.data s.cmd.seed).1, (Spec.h128C17to128 s.cmd.data s.cmd.seed).2⟩)

/-- R176: HASH128 of 129 to 240 bytes. -/
def Obligations.Hash128Of129To240 : Prop :=
  ∀ s : State, 129 ≤ s.cmd.data.length → s.cmd.data.length ≤ 240 →
    exec .hash128 s = .next (s.respond
      ⟨0, (Spec.h128C129to240 s.cmd.data s.cmd.seed).1, (Spec.h128C129to240 s.cmd.data s.cmd.seed).2⟩)

/-- R178: HASH128 of 241 bytes or more. -/
def Obligations.Hash128OfLongInput : Prop :=
  ∀ s : State, 241 ≤ s.cmd.data.length →
    exec .hash128 s = .next (s.respond
      ⟨0, (Spec.h128C241 s.cmd.data s.cmd.seed).1, (Spec.h128C241 s.cmd.data s.cmd.seed).2⟩)

/-- R170, R179: HASH128 of every DATA and seed completes with the pair of the class its length is in. -/
def Obligations.Hash128Command : Prop :=
  encodedBy 0x03 (fun _ => .hash128) ∧
  ∀ s : State, exec .hash128 s = .next (s.respond
    ⟨0, (Spec.hash128 s.cmd.data s.cmd.seed).1, (Spec.hash128 s.cmd.data s.cmd.seed).2⟩)

/-- HASH128 reads no secret byte above index 134 (R180): two tables that agree on their first 135 bytes give the same
hash. -/
def Obligations.Hash128ReadsNoSecretAbove134 : Prop :=
  ∀ (P Q : Config.Params) (B : List Byte) (s : U64), P.prime64_1 = Q.prime64_1 → P.foldMode = Q.foldMode →
    P.secret.length = 192 → Q.secret.length = 192 → P.secret.take 135 = Q.secret.take 135 →
      hash128 P B s = hash128 Q B s

/-- FOLD_MODE matters to HASH128 only for 9 to 240 bytes (spec/90_conflicts.md C2). -/
def Obligations.FoldModeMattersOnlyBetween9And240 : Prop :=
  ∀ (P : Config.Params) (m : Config.FoldMode) (B : List Byte) (s : U64), (B.length ≤ 8 ∨ 241 ≤ B.length) →
    hash128 { P with foldMode := m } B s = hash128 P B s

/-! ### The stream -/

/-- R150: H64_INIT, in every stream state. -/
def Obligations.H64InitStartsAStream : Prop :=
  encodedBy 0x08 (fun _ => .h64Init) ∧
  ∀ s : State, exec .h64Init s = .next
    ((s.setCtx { st := .active, v := Spec.lanesOf s.cmd.seed, mem := s.ctx.mem, memsize := 0, totalLen := 0,
                 large := false, seed := s.cmd.seed }).respond ⟨0, 0, 0⟩)

/-- R151, R152: H64_UPDATE. In ACTIVE it counts the chunk, folds every full block of the pending bytes and the chunk, and keeps
the rest; in IDLE and DONE it raises STATE. -/
def Obligations.H64UpdateFoldsAndKeeps : Prop :=
  encodedBy 0x09 (fun _ => .h64Update) ∧
  ∀ s : State, s.ctx.Inv →
    (s.ctx.st ≠ .active → exec .h64Update s = .next (s.respond ⟨2, 0, 0⟩)) ∧
    (s.ctx.st = .active →
      ∃ (pend : List Byte) (t : State), pend.length = s.ctx.memsize.val ∧
        (∀ k < s.ctx.memsize.val, s.ctx.mem.get k = pend[k]?) ∧
        exec .h64Update s = .next t ∧ t.responses = s.responses ++ [⟨0, 0, 0⟩] ∧
        t.ctx.st = .active ∧ t.ctx.seed = s.ctx.seed ∧
        t.ctx.totalLen = s.ctx.totalLen + BitVec.ofNat 64 s.cmd.data.length ∧
        t.ctx.v = Spec.lanes64 (pend ++ s.cmd.data) ((pend ++ s.cmd.data).length / 32) s.ctx.v ∧
        t.ctx.large = (s.ctx.large || decide (32 ≤ (pend ++ s.cmd.data).length)) ∧
        t.ctx.memsize.val = (pend ++ s.cmd.data).length % 32 ∧
        ∀ k < (pend ++ s.cmd.data).length % 32,
          t.ctx.mem.get k = (pend ++ s.cmd.data)[32 * ((pend ++ s.cmd.data).length / 32) + k]?)

/-- An empty chunk leaves every field of `ctx` unchanged (R151). -/
def Obligations.EmptyUpdateChangesNothing : Prop :=
  ∀ s : State, s.ctx.Inv → s.ctx.st = .active → s.cmd.data = [] →
    exec .h64Update s = .next (s.respond ⟨0, 0, 0⟩)

/-- R153, R154: H64_FINAL. In ACTIVE it answers the finalized hash and moves STATE to DONE; in IDLE and DONE it raises STATE. -/
def Obligations.H64FinalReturnsTheHash : Prop :=
  encodedBy 0x0A (fun _ => .h64Final) ∧
  ∀ s : State, s.ctx.Inv →
    (s.ctx.st ≠ .active → exec .h64Final s = .next (s.respond ⟨2, 0, 0⟩)) ∧
    (s.ctx.st = .active →
      ∃ pend : List Byte, pend.length = s.ctx.memsize.val ∧ (∀ k < s.ctx.memsize.val, s.ctx.mem.get k = pend[k]?) ∧
        exec .h64Final s = .next ((s.setCtx { s.ctx with st := .done }).respond
          ⟨0, Spec.tail64 ((if s.ctx.large = true then Spec.converge64 s.ctx.v
            else s.ctx.seed + 2870177450012600261#64) + s.ctx.totalLen) pend, 0⟩))

/-- From any state, a stream of chunks leaves the context that the argument of R157 describes; in it LARGE = 1 exactly when
`TOTAL_LEN >= 32` and MEMSIZE is `TOTAL_LEN mod 32` (R26). -/
def Obligations.StreamContextAfterChunks : Prop :=
  ∀ (s : State) (seed : U64) (chunks : List (List Byte)) (rest : List Command), chunks.flatten.length < 2 ^ 64 →
    s.pending = streamOf seed chunks ++ rest →
      ∃ t : State, Host.Core.run core (chunks.length + 1) s = .next t ∧ t.pending = rest ∧
        t.ctx.Holds chunks.flatten seed

/-- R157, chunk invariance: from any state, H64_INIT, one H64_UPDATE for each chunk and H64_FINAL answer what HASH64 answers for
the concatenation of the chunks, which is its 64-bit hash. -/
def Obligations.ChunkInvariance : Prop :=
  ∀ (s : State) (seed : U64) (chunks : List (List Byte)) (rest : List Command), chunks.flatten.length < 2 ^ 64 →
    s.pending = streamOf seed chunks ++ commandOf .h64Final 0 0 0 [] :: commandOf .hash64 seed 0 0 chunks.flatten :: rest →
      ∃ t : State, Host.Core.run core (chunks.length + 3) s = .next t ∧ t.pending = rest ∧ t.ctx.st = .done ∧
        t.responses = s.responses ++ List.replicate (chunks.length + 1) ⟨0, 0, 0⟩ ++
          [⟨0, Spec.hash64 chunks.flatten seed, 0⟩, ⟨0, Spec.hash64 chunks.flatten seed, 0⟩]
end

