-- ==== Sys2Proof/Laws/State.lean ====
section
/-! SUPPORT. One lemma per field and update of the machine's state, each true by `rfl`. -/

namespace Sys2Proof.Laws

open Machine

@[simp] theorem respond_ctx (s : State) (r : Response) : (s.respond r).ctx = s.ctx := rfl
@[simp] theorem respond_cmd (s : State) (r : Response) : (s.respond r).cmd = s.cmd := rfl
@[simp] theorem respond_pending (s : State) (r : Response) : (s.respond r).pending = s.pending := rfl
@[simp] theorem respond_responses (s : State) (r : Response) : (s.respond r).responses = s.responses ++ [r] := rfl

@[simp] theorem setCtx_ctx (s : State) (c : Ctx) : (s.setCtx c).ctx = c := rfl
@[simp] theorem setCtx_cmd (s : State) (c : Ctx) : (s.setCtx c).cmd = s.cmd := rfl
@[simp] theorem setCtx_pending (s : State) (c : Ctx) : (s.setCtx c).pending = s.pending := rfl
@[simp] theorem setCtx_responses (s : State) (c : Ctx) : (s.setCtx c).responses = s.responses := rfl

@[simp] theorem capture_ctx (s : State) (c : Command) (l : List Command) : (s.capture c l).ctx = s.ctx := rfl
@[simp] theorem capture_cmd (s : State) (c : Command) (l : List Command) : (s.capture c l).cmd = c := rfl
@[simp] theorem capture_pending (s : State) (c : Command) (l : List Command) : (s.capture c l).pending = l := rfl
@[simp] theorem capture_responses (s : State) (c : Command) (l : List Command) :
    (s.capture c l).responses = s.responses := rfl

@[simp] theorem start_st (P : Config.Params) (c : Ctx) (x : U64) : (c.start P x).st = .active := rfl
@[simp] theorem start_v (P : Config.Params) (c : Ctx) (x : U64) : (c.start P x).v = lanes64Init P x := rfl
@[simp] theorem start_mem (P : Config.Params) (c : Ctx) (x : U64) : (c.start P x).mem = c.mem := rfl
@[simp] theorem start_memsize (P : Config.Params) (c : Ctx) (x : U64) : (c.start P x).memsize = 0 := rfl
@[simp] theorem start_totalLen (P : Config.Params) (c : Ctx) (x : U64) : (c.start P x).totalLen = 0 := rfl
@[simp] theorem start_large (P : Config.Params) (c : Ctx) (x : U64) : (c.start P x).large = false := rfl
@[simp] theorem start_seed (P : Config.Params) (c : Ctx) (x : U64) : (c.start P x).seed = x := rfl

@[simp] theorem count_st (c : Ctx) (n : Nat) : (c.count n).st = c.st := rfl
@[simp] theorem count_v (c : Ctx) (n : Nat) : (c.count n).v = c.v := rfl
@[simp] theorem count_mem (c : Ctx) (n : Nat) : (c.count n).mem = c.mem := rfl
@[simp] theorem count_memsize (c : Ctx) (n : Nat) : (c.count n).memsize = c.memsize := rfl
@[simp] theorem count_totalLen (c : Ctx) (n : Nat) : (c.count n).totalLen = c.totalLen + trunc64 n := rfl
@[simp] theorem count_large (c : Ctx) (n : Nat) : (c.count n).large = c.large := rfl
@[simp] theorem count_seed (c : Ctx) (n : Nat) : (c.count n).seed = c.seed := rfl

@[simp] theorem finish_st (c : Ctx) : c.finish.st = .done := rfl
@[simp] theorem finish_v (c : Ctx) : c.finish.v = c.v := rfl
@[simp] theorem finish_mem (c : Ctx) : c.finish.mem = c.mem := rfl
@[simp] theorem finish_memsize (c : Ctx) : c.finish.memsize = c.memsize := rfl
@[simp] theorem finish_totalLen (c : Ctx) : c.finish.totalLen = c.totalLen := rfl
@[simp] theorem finish_large (c : Ctx) : c.finish.large = c.large := rfl
@[simp] theorem finish_seed (c : Ctx) : c.finish.seed = c.seed := rfl

/-! ### The result monad of the reads -/

@[simp] theorem ok_bind {α β : Type} (a : α) (f : α → Except Fault β) : (Except.ok a >>= f) = f a := rfl
@[simp] theorem error_bind {α β : Type} (e : Fault) (f : α → Except Fault β) :
    (Except.error e >>= f) = Except.error e := rfl
@[simp] theorem pure_ok {α : Type} (a : α) : (pure a : Except Fault α) = Except.ok a := rfl

/-- A sequence of reads that succeeds succeeds in its first read. -/
theorem bind_eq_ok {α β : Type} {x : Except Fault α} {f : α → Except Fault β} {b : β} (h : (x >>= f) = .ok b) :
    ∃ a, x = .ok a ∧ f a = .ok b := by
  cases x with
  | ok a => exact ⟨a, rfl, h⟩
  | error e => cases h

/-! ### The ends of a command -/

@[simp] theorem complete_ok (s : State) (lo hi : U64) : s.complete (.ok (lo, hi)) = s.ret lo hi := rfl
@[simp] theorem complete64_ok (s : State) (r : U64) : s.complete64 (.ok r) = s.ret r 0 := rfl
@[simp] theorem complete32_ok (s : State) (r : U32) : s.complete32 (.ok r) = s.ret (zext64 r) 0 := rfl

/-- All a completed command can do: return a pair its reads computed, or fault in a read. -/
theorem complete_eq_next {s t : State} {x : Except Fault (U64 × U64)} (h : s.complete x = .next t) :
    ∃ lo hi, x = .ok (lo, hi) ∧ t = s.respond (.ok lo hi) := by
  cases x with
  | ok r => exact ⟨r.1, r.2, rfl, by simpa [State.complete, State.ret] using h.symm⟩
  | error e => cases h

/-- The same for a command with one 64-bit result. -/
theorem complete64_eq_next {s t : State} {x : Except Fault U64} (h : s.complete64 x = .next t) :
    ∃ r, x = .ok r ∧ t = s.respond (.ok r 0) := by
  cases x with
  | ok r => exact ⟨r, rfl, by simpa [State.ret] using h.symm⟩
  | error e => cases h

/-- The same for a command with one 32-bit result. -/
theorem complete32_eq_next {s t : State} {x : Except Fault U32} (h : s.complete32 x = .next t) :
    ∃ r, x = .ok r ∧ t = s.respond (.ok (zext64 r) 0) := by
  cases x with
  | ok r => exact ⟨r, rfl, by simpa [State.ret] using h.symm⟩
  | error e => cases h

end Sys2Proof.Laws
end

