-- ==== Sys2Proof/Laws/Decode.lean ====
section
/-! SUPPORT. The four fields of a command word put together and read back (spec/30_encoding.md R63), and what a word that
decodes looks like. -/

namespace Sys2Proof.Laws

theorem extract_append_low {m n : Nat} (x : BitVec m) (y : BitVec n) : (x ++ y).extractLsb' 0 n = y := by
  ext i hi
  simp [BitVec.getLsbD_append, hi]

theorem extract_append_high {m n : Nat} (x : BitVec m) (y : BitVec n) (i w : Nat) :
    (x ++ y).extractLsb' (n + i) w = x.extractLsb' i w := by
  ext j hj
  simp [BitVec.getLsbD_append, show ¬ n + i + j < n by omega, show n + i + j - n = i + j by omega]

theorem extract_append_mid {m n : Nat} (x : BitVec m) (y : BitVec n) (i w : Nat) (h : i + w ≤ n) :
    (x ++ y).extractLsb' i w = y.extractLsb' i w := by
  ext j hj
  simp [BitVec.getLsbD_append, show i + j < n by omega]

theorem opcOf_wordOf (rsv : BitVec 10) (k : BitVec 8) (r : BitVec 6) (opc : BitVec 8) :
    opcOf (wordOf rsv k r opc) = opc := by
  unfold opcOf wordOf
  rw [extract_append_mid _ _ 0 8 (by omega), extract_append_mid _ _ 0 8 (by omega), extract_append_low]

theorem rOf_wordOf (rsv : BitVec 10) (k : BitVec 8) (r : BitVec 6) (opc : BitVec 8) :
    rOf (wordOf rsv k r opc) = r := by
  unfold rOf wordOf
  rw [extract_append_mid _ _ 8 6 (by omega), extract_append_mid _ _ 8 6 (by omega)]
  exact (extract_append_high r opc 0 6).trans (by ext i hi; simp)

theorem kOf_wordOf (rsv : BitVec 10) (k : BitVec 8) (r : BitVec 6) (opc : BitVec 8) :
    kOf (wordOf rsv k r opc) = k := by
  unfold kOf wordOf
  rw [extract_append_mid _ _ 14 8 (by omega)]
  exact (extract_append_high k (r ++ opc) 0 8).trans (by ext i hi; simp)

theorem rsvOf_wordOf (rsv : BitVec 10) (k : BitVec 8) (r : BitVec 6) (opc : BitVec 8) :
    rsvOf (wordOf rsv k r opc) = rsv := by
  unfold rsvOf wordOf
  exact (extract_append_high rsv (k ++ (r ++ opc)) 0 10).trans (by ext i hi; simp)

/-- A word is read as a command when it is so for every word whose reserved bits are zero. -/
theorem encodedBy_of {opc : BitVec 8} {f : U32 → Instr}
    (h : ∀ w, rsvOf w = 0 → opcOf w = opc → decodeWord w = .ok (f w)) : encodedBy opc f := by
  refine fun w ho => ⟨fun hr => h w hr ho, fun hr => ?_⟩
  unfold decodeWord
  rw [if_pos (show rsvOf w ≠ 0 from hr)]

end Sys2Proof.Laws
end

