-- ==== Sys2Proof/Laws/Bits.lean ====
section
/-! SUPPORT. Rotations, byte reversal, xorshifts and multiplications as functions on bits: what the laws of
spec/40_mixing_primitives.md R89 rest on. -/

namespace Sys2Proof.Laws

open Machine

/-- A bit of a rotation, the amount taken modulo the width. -/
theorem getLsbD_rotateLeft_mod {w : Nat} (v : BitVec w) (r i : Nat) (hi : i < w) :
    (v.rotateLeft r).getLsbD i = v.getLsbD ((i + (w - r % w)) % w) := by
  have hr := Nat.mod_lt r (show w > 0 by omega)
  have e : ∀ q, q < w → (v.rotateLeft q).getLsbD i = v.getLsbD ((i + (w - q)) % w) := by
    intro q hq
    rw [BitVec.getLsbD_rotateLeft, Nat.mod_eq_of_lt hq]
    by_cases h : i < q
    · rw [Nat.mod_eq_of_lt (show i + (w - q) < w by omega)]
      simp [h, Nat.add_comm]
    · rw [Nat.mod_eq_sub_mod (show i + (w - q) ≥ w by omega), Nat.mod_eq_of_lt (show i + (w - q) - w < w by omega)]
      simp [h, hi]
      congr 1
      omega
  rw [← BitVec.rotateLeft_mod_eq_rotateLeft, e _ hr]

/-- Two rotations are one by the sum. -/
theorem rotateLeft_add {w : Nat} (v : BitVec w) (a b : Nat) : (v.rotateLeft a).rotateLeft b = v.rotateLeft (a + b) := by
  apply BitVec.eq_of_getLsbD_eq
  intro i hi
  have hw : 0 < w := by omega
  rw [getLsbD_rotateLeft_mod _ _ _ hi, getLsbD_rotateLeft_mod _ _ _ (Nat.mod_lt _ hw), getLsbD_rotateLeft_mod _ _ _ hi]
  congr 1
  rw [Nat.mod_add_mod, Nat.add_mod a b w]
  have ha := Nat.mod_lt a hw
  have hb := Nat.mod_lt b hw
  generalize a % w = x at *
  generalize b % w = y at *
  rcases Nat.lt_or_ge (x + y) w with h | h
  · rw [Nat.mod_eq_of_lt h, show i + (w - y) + (w - x) = i + (w - (x + y)) + w by omega, Nat.add_mod_right]
  · rw [show (x + y) % w = x + y - w by rw [Nat.mod_eq_sub_mod h, Nat.mod_eq_of_lt (by omega)],
      show i + (w - y) + (w - x) = i + (w - (x + y - w)) by omega]

/-- Byte `k` of a reversed word (R82). -/
theorem swap32_byte (v : U32) (k : Nat) (h : k < 4) :
    (Spec.swap32 v).extractLsb' (8 * k) 8 = v.extractLsb' (8 * (3 - k)) 8 := by
  unfold Spec.swap32
  have z : ∀ b : BitVec 8, b.extractLsb' 0 8 = b := fun b => by ext i hi; simp
  obtain rfl | rfl | rfl | rfl : k = 0 ∨ k = 1 ∨ k = 2 ∨ k = 3 := by omega
  · exact (extract_append_mid _ _ 0 8 (by omega)).trans
      ((extract_append_mid _ _ 0 8 (by omega)).trans (extract_append_low _ _))
  · exact (extract_append_mid _ _ 8 8 (by omega)).trans
      ((extract_append_mid _ _ 8 8 (by omega)).trans ((extract_append_high _ _ 0 8).trans (z _)))
  · exact (extract_append_mid _ _ 16 8 (by omega)).trans ((extract_append_high _ _ 0 8).trans (z _))
  · exact (extract_append_high _ _ 0 8).trans (z _)

/-- Byte `k` of a reversed word (R83). -/
theorem swap64_byte (v : U64) (k : Nat) (h : k < 8) :
    (Spec.swap64 v).extractLsb' (8 * k) 8 = v.extractLsb' (8 * (7 - k)) 8 := by
  have e : ∀ (i k : Nat), k + 8 ≤ 32 → (v.extractLsb' i 32).extractLsb' k 8 = v.extractLsb' (i + k) 8 := by
    intro i k hk
    ext j hj
    simp [show k + j < 32 by omega, Nat.add_assoc]
  unfold Spec.swap64
  rcases Nat.lt_or_ge k 4 with h4 | h4
  · refine (extract_append_mid _ _ (8 * k) 8 (by omega)).trans ?_
    rw [swap32_byte _ _ h4, e _ _ (by omega)]
    congr 1; omega
  · obtain ⟨j, rfl⟩ := Nat.exists_eq_add_of_le h4
    rw [show 8 * (4 + j) = 32 + 8 * j by omega]
    refine (extract_append_high _ _ (8 * j) 8).trans ?_
    rw [swap32_byte _ _ (by omega), e _ _ (by omega)]
    congr 1; omega

/-- A word is its bytes. -/
theorem eq_of_bytes {n : Nat} (x y : BitVec (8 * n))
    (h : ∀ k < n, x.extractLsb' (8 * k) 8 = y.extractLsb' (8 * k) 8) : x = y := by
  apply BitVec.eq_of_getLsbD_eq
  intro i hi
  have := congrArg (fun b => b.getLsbD (i % 8)) (h (i / 8) (by omega))
  simp only [BitVec.getLsbD_extractLsb', show i % 8 < 8 by omega, decide_true, Bool.true_and,
    show 8 * (i / 8) + i % 8 = i by omega] at this
  exact this

/-- An xorshift is injective. -/
theorem xorshift_injective {k : Nat} (hk : 0 < k) : Function.Injective (fun x : U64 => x ^^^ x >>> k) := by
  intro x y h
  have hb : ∀ n i, 64 - n ≤ i → x.getLsbD i = y.getLsbD i := by
    intro n
    induction n with
    | zero => intro i hi; rw [BitVec.getLsbD_of_ge _ _ (by omega), BitVec.getLsbD_of_ge _ _ (by omega)]
    | succ n ih =>
      intro i hi
      have := congrArg (fun z => z.getLsbD i) h
      simp only [BitVec.getLsbD_xor, BitVec.getLsbD_ushiftRight] at this
      rw [ih (k + i) (by omega)] at this
      simpa using this
  apply BitVec.eq_of_getLsbD_eq
  intro i _
  exact hb 64 i (by omega)

/-- A multiplication by a number that has an inverse is injective. -/
theorem mul_injective {c d : U64} (h : c * d = 1) : Function.Injective (fun x : U64 => x * c) := by
  intro x y hxy
  have : x * c * d = y * c * d := congrArg (· * d) hxy
  rw [BitVec.mul_assoc, BitVec.mul_assoc, h] at this
  exact (BitVec.mul_one x).symm.trans (this.trans (BitVec.mul_one y))

end Sys2Proof.Laws
end

