-- ==== Sys2Proof/Laws/Reads.lean ====
section
/-! SUPPORT. What a read of a byte space answers: in bounds the little-endian word of spec/20_memory.md R41, out of bounds
the fault of R46; and how such a word moves through `take`, `drop` and `++`. -/

namespace Sys2Proof.Laws

open Machine Spec

theorem readBytes_ok {sp : Space} {B : List Byte} {off w : Nat} (h : off + w ≤ B.length) :
    readBytes sp B off w = .ok ((B.drop off).take w) := by simp [readBytes, h]

theorem readBytes_error {sp : Space} {B : List Byte} {off w : Nat} (h : B.length < off + w) :
    readBytes sp B off w = .error (.readOutOfBounds sp off w) := by simp [readBytes, Nat.not_le.mpr h]

/-- Reads that agree in one space agree in every space but for the space a fault names. -/
theorem take_drop_eq (B : List Byte) (off w : Nat) (h : off + w ≤ B.length) :
    (B.drop off).take w = (List.range w).map fun k => byteAt B (off + k) := by
  apply List.ext_getElem
  · simp; omega
  · intro k h1 h2
    simp at h1 h2
    have : off + k < B.length := by omega
    simp [byteAt, this]

theorem leNat_lt (bs : List Byte) : leNat bs < 256 ^ bs.length := by
  induction bs with
  | nil => simp [leNat]
  | cons b bs ih =>
    have := b.isLt
    simp only [leNat, List.length_cons, pow_succ]
    omega

theorem append_toNat {m n : Nat} (x : BitVec m) (y : BitVec n) : (x ++ y).toNat = x.toNat * 2 ^ n + y.toNat := by
  rw [BitVec.toNat_append, Nat.shiftLeft_eq, Nat.mul_comm, Nat.two_pow_add_eq_or_of_lt y.isLt]

theorem word32At_toNat (B : List Byte) (i : Nat) :
    (word32At B i).toNat = leNat [byteAt B i, byteAt B (i + 1), byteAt B (i + 2), byteAt B (i + 3)] := by
  simp only [word32At, append_toNat, leNat]
  omega

theorem word64At_toNat (B : List Byte) (i : Nat) :
    (word64At B i).toNat = leNat [byteAt B i, byteAt B (i + 1), byteAt B (i + 2), byteAt B (i + 3),
      byteAt B (i + 4), byteAt B (i + 5), byteAt B (i + 6), byteAt B (i + 7)] := by
  rw [word64At, append_toNat, word32At_toNat, word32At_toNat]
  simp only [leNat, Nat.add_assoc, Nat.reduceAdd]
  omega

theorem read8_ok {sp : Space} {B : List Byte} {i : Nat} (h : i + 1 ≤ B.length) :
    read8 sp B i = .ok (byteAt B i) := by
  rw [read8, memRead, readBytes_ok h, take_drop_eq _ _ _ h]
  simp [List.range_succ, leNat]

theorem le32_ok {sp : Space} {B : List Byte} {i : Nat} (h : i + 4 ≤ B.length) :
    le32 sp B i = .ok (word32At B i) := by
  rw [le32, memRead, readBytes_ok h, take_drop_eq _ _ _ h]
  simp only [ok_bind, pure_ok]
  congr 1
  apply BitVec.eq_of_toNat_eq
  rw [word32At_toNat, BitVec.toNat_ofNat, Nat.mod_eq_of_lt]
  · simp [List.range_succ]
  · simpa using leNat_lt ((List.range 4).map fun k => byteAt B (i + k))

theorem le64_ok {sp : Space} {B : List Byte} {i : Nat} (h : i + 8 ≤ B.length) :
    le64 sp B i = .ok (word64At B i) := by
  rw [le64, memRead, readBytes_ok h, take_drop_eq _ _ _ h]
  simp only [ok_bind, pure_ok]
  congr 1
  apply BitVec.eq_of_toNat_eq
  rw [word64At_toNat, BitVec.toNat_ofNat, Nat.mod_eq_of_lt]
  · simp [List.range_succ]
  · simpa using leNat_lt ((List.range 8).map fun k => byteAt B (i + k))

theorem le32_error {sp : Space} {B : List Byte} {i : Nat} (h : B.length < i + 4) :
    le32 sp B i = .error (.readOutOfBounds sp i 4) := by simp [le32, memRead, readBytes_error h]

theorem le64_error {sp : Space} {B : List Byte} {i : Nat} (h : B.length < i + 8) :
    le64 sp B i = .error (.readOutOfBounds sp i 8) := by simp [le64, memRead, readBytes_error h]

theorem secretTable_length : Config.secretTable.length = 192 := by rfl

theorem k32_ok {i : Nat} (h : i ≤ 188) : k32 Config.params i = .ok (K32 i) :=
  le32_ok (B := Config.secretTable) (by rw [secretTable_length]; omega)

theorem k64_ok {i : Nat} (h : i ≤ 184) : k64 Config.params i = .ok (K64 i) :=
  le64_ok (B := Config.secretTable) (by rw [secretTable_length]; omega)

/-! ### Words of a part of a sequence -/

theorem byteAt_append_left {A B : List Byte} {i : Nat} (h : i < A.length) : byteAt (A ++ B) i = byteAt A i := by
  simp [byteAt, List.getD_eq_getElem?_getD, List.getElem?_append_left h]

theorem byteAt_drop (B : List Byte) (p i : Nat) : byteAt (B.drop p) i = byteAt B (p + i) := by
  simp [byteAt, List.getD_eq_getElem?_getD]

theorem byteAt_take {B : List Byte} {n i : Nat} (h : i < n) : byteAt (B.take n) i = byteAt B i := by
  simp [byteAt, List.getD_eq_getElem?_getD, h]

theorem word32At_append_left {A B : List Byte} {i : Nat} (h : i + 4 ≤ A.length) :
    word32At (A ++ B) i = word32At A i := by
  simp only [word32At]
  repeat rw [byteAt_append_left (by omega)]

theorem word64At_append_left {A B : List Byte} {i : Nat} (h : i + 8 ≤ A.length) :
    word64At (A ++ B) i = word64At A i := by
  simp only [word64At]
  repeat rw [word32At_append_left (by omega)]

theorem word32At_drop (B : List Byte) (p i : Nat) : word32At (B.drop p) i = word32At B (p + i) := by
  simp only [word32At, byteAt_drop, Nat.add_assoc]

theorem word64At_drop (B : List Byte) (p i : Nat) : word64At (B.drop p) i = word64At B (p + i) := by
  simp only [word64At, word32At_drop, Nat.add_assoc]

theorem word64At_take {B : List Byte} {n i : Nat} (h : i + 8 ≤ n) : word64At (B.take n) i = word64At B i := by
  simp only [word64At, word32At]
  repeat rw [byteAt_take (by omega)]

end Sys2Proof.Laws
end

