-- ==== Sys2Proof/Laws/Mixing.lean ====
section
/-! SUPPORT. The mixing primitives in other words: rotates as `BitVec.rotateLeft`, byte reversal as fields side by
side, the fold by the law of spec/40_mixing_primitives.md R89, and the 16-byte mixer over total reads. -/

namespace Sys2Proof.Laws

open Machine Spec

/-! ### The decided constants (spec/10_state.md R28, R29) -/

theorem p32_1_eq : Config.p32_1 = 2654435761 := rfl
theorem p32_2_eq : Config.p32_2 = 2246822519 := rfl
theorem p32_3_eq : Config.p32_3 = 3266489917 := rfl
theorem p32_4_eq : Config.p32_4 = 668265263 := rfl
theorem p32_5_eq : Config.p32_5 = 374761393 := rfl
theorem p64_2_eq : Config.p64_2 = 14029467366897019727 := rfl
theorem p64_3_eq : Config.p64_3 = 1609587929392839161 := rfl
theorem p64_4_eq : Config.p64_4 = 9650029242287828579 := rfl
theorem p64_5_eq : Config.p64_5 = 2870177450012600261 := rfl
theorem prime64_1_eq : Config.params.prime64_1 = 11400714785074694791 := rfl

/-! ### The primitives -/

theorem avalanche64_eq (h : U64) : avalanche64 h = aval64 h := by
  unfold avalanche64 aval64; rfl

theorem avalanche3_eq (h : U64) : avalanche3 h = aval3 h := by
  unfold avalanche3 aval3; rfl

theorem rotl32_eq (v : U32) (r : Nat) : rotl32 v r = v.rotateLeft r := by
  simp only [rotl32, BitVec.rotateLeft, BitVec.rotateLeftAux]
  split
  · have : v >>> 32 = 0 := BitVec.ushiftRight_eq_zero (Nat.le_refl 32)
    simp [*]
  · rfl

theorem rotl64_eq (v : U64) (r : Nat) : rotl64 v r = v.rotateLeft r := by
  simp only [rotl64, BitVec.rotateLeft, BitVec.rotateLeftAux]
  split
  · have : v >>> 64 = 0 := BitVec.ushiftRight_eq_zero (Nat.le_refl 64)
    simp [*]
  · rfl

theorem rrmxmx_eq (h len : U64) : Machine.rrmxmx h len = Spec.rrmxmx h len := by
  simp only [Machine.rrmxmx, rotl64_eq, Spec.rrmxmx]; rfl

theorem hi32_eq (v : U64) : zext64 (hi32 v) = v >>> 32 := by
  apply BitVec.eq_of_toNat_eq
  simp [zext64, hi32, Nat.shiftRight_eq_div_pow]
  have := v.isLt
  omega

theorem lo32_eq (v : U64) : zext64 (lo32 v) = v &&& 4294967295#64 := by
  apply BitVec.eq_of_toNat_eq
  have h : (0xFFFFFFFF : Nat) = 2 ^ 32 - 1 := by norm_num
  simp [zext64, lo32]
  rw [h, Nat.and_two_pow_sub_one_eq_mod]
  omega

theorem split_lo_hi (v : U64) : v = zext64 (lo32 v) + zext64 (hi32 v) * 4294967296#64 := by
  have hv := v.isLt
  apply BitVec.eq_of_toNat_eq
  rw [BitVec.toNat_add, BitVec.toNat_mul, BitVec.toNat_ofNat, zext64, zext64, BitVec.toNat_setWidth,
    BitVec.toNat_setWidth, lo32, hi32, BitVec.extractLsb'_toNat, BitVec.extractLsb'_toNat, Nat.shiftRight_eq_div_pow,
    Nat.shiftRight_eq_div_pow]
  omega

theorem foldSum_eq (a b : U64) : foldSum a b = fold a b := by
  have h : ∀ x : U64, x <<< 32 = x * 4294967296#64 := fun x => by
    apply BitVec.eq_of_toNat_eq
    rw [BitVec.toNat_shiftLeft, BitVec.toNat_mul, BitVec.toNat_ofNat, Nat.shiftLeft_eq]
  have z : 4294967296#64 * 4294967296#64 = 0 := by decide
  have e : ∀ x : U64, zext64 (hi32 (zext64 (lo32 x) + zext64 (hi32 x) * 4294967296#64)) = zext64 (hi32 x) := fun x => by
    rw [← split_lo_hi x]
  rw [foldSum, fold, ← hi32_eq, ← hi32_eq, h]
  conv_rhs => rw [split_lo_hi a, split_lo_hi b, e a, e b]
  generalize zext64 (lo32 a) = p
  generalize zext64 (hi32 a) = q
  generalize zext64 (lo32 b) = u
  generalize zext64 (hi32 b) = w
  generalize 4294967296#64 = k at z ⊢
  linear_combination (-(q * w)) * z

theorem mul128Fold64_params (a b : U64) : mul128Fold64 Config.params a b = fold a b := foldSum_eq a b

theorem mix32x32_eq (w k : U64) : mix32x32 w k = mix32 w k := by
  simp only [mix32x32, mix32, lo32_eq, hi32_eq]

theorem bytes64_length (v : U64) : (bytes64 v).length = 8 := by simp [bytes64]

theorem byteAt_bytes64 (v : U64) {k : Nat} (h : k < 8) : byteAt (bytes64 v) k = v.extractLsb' (8 * k) 8 := by
  simp [byteAt, bytes64, byteOf64, h]

theorem leNat_bytes (n k : Nat) :
    leNat ((List.range k).map fun j => BitVec.ofNat 8 (n / 256 ^ j)) = n % 256 ^ k := by
  induction k generalizing n with
  | zero => simp [leNat, Nat.mod_one]
  | succ k ih =>
    have e : ∀ j, n / 256 ^ (j + 1) = n / 256 / 256 ^ j := fun j => by
      rw [pow_succ', Nat.div_div_eq_div_mul]
    rw [List.range_succ_eq_map, List.map_cons, List.map_map, leNat]
    simp only [Function.comp_def, Nat.succ_eq_add_one, e, ih]
    rw [pow_succ', Nat.mod_mul]
    simp

/-- The 8 bytes of a word read back as that word (R98). -/
theorem leNat_bytes64 (v : U64) : leNat (bytes64 v) = v.toNat := by
  have h : bytes64 v = (List.range 8).map fun j => BitVec.ofNat 8 (v.toNat / 256 ^ j) := by
    apply List.map_congr_left
    intro j _
    apply BitVec.eq_of_toNat_eq
    rw [byteOf64, BitVec.extractLsb'_toNat, Nat.shiftRight_eq_div_pow, BitVec.toNat_ofNat, pow_mul]
    norm_num
  rw [h, leNat_bytes, Nat.mod_eq_of_lt]
  exact v.isLt

theorem word64At_append_bytes64 (u v : U64) :
    word64At (bytes64 u ++ bytes64 v) 0 = u ∧ word64At (bytes64 u ++ bytes64 v) 8 = v := by
  have r : ∀ x : U64, word64At (bytes64 x) 0 = x := fun x => by
    apply BitVec.eq_of_toNat_eq
    rw [word64At_toNat, ← leNat_bytes64 x]
    simp [byteAt, bytes64, List.range_succ]
  constructor
  · rw [word64At_append_left (by simp [bytes64_length]), r]
  · have := word64At_drop (bytes64 u ++ bytes64 v) 8 0
    rw [List.drop_append_of_le_length (by simp [bytes64_length]), List.drop_of_length_le (by simp [bytes64_length])] at this
    rw [List.nil_append, r] at this
    exact this.symm

/-- Four bytes shifted to their places and joined are the bytes side by side. -/
theorem or_bytes_eq_append (a b c d : Byte) :
    ((a.setWidth 32 <<< 24) ||| (b.setWidth 32 <<< 16) ||| (c.setWidth 32 <<< 8) ||| d.setWidth 32 : U32) =
      a ++ (b ++ (c ++ d)) := by
  ext i hi
  have g : (a ++ (b ++ (c ++ d)) : BitVec (8 + (8 + (8 + 8))))[i] =
      if i < 8 then d.getLsbD i else if i < 16 then c.getLsbD (i - 8) else if i < 24 then b.getLsbD (i - 16)
      else a.getLsbD (i - 24) := by
    rw [← BitVec.getLsbD_eq_getElem]
    simp only [BitVec.getLsbD_append]
    repeat' split
    all_goals first | omega | rfl
  rw [g]
  simp only [BitVec.getElem_or, BitVec.getElem_shiftLeft, BitVec.getElem_setWidth]
  repeat' split
  · simp [show i < 24 by omega, show i < 16 by omega, *]
  · simp [show i < 24 by omega, BitVec.getLsbD_of_ge d i (by omega), *]
  · simp [BitVec.getLsbD_of_ge d i (by omega), BitVec.getLsbD_of_ge c (i - 8) (by omega), *]
  · simp [BitVec.getLsbD_of_ge d i (by omega), BitVec.getLsbD_of_ge c (i - 8) (by omega),
      BitVec.getLsbD_of_ge b (i - 16) (by omega), *]

theorem bswap32_eq (v : U32) : bswap32 v = swap32 v := by
  rw [bswap32, or_bytes_eq_append, swap32]

theorem bswap64_eq (v : U64) : bswap64 v = swap64 v := by
  have e : ∀ (i k : Nat), k + 8 ≤ 32 → (v.extractLsb' i 32).extractLsb' k 8 = v.extractLsb' (i + k) 8 := by
    intro i k hk
    ext j hj
    simp [show k + j < 32 by omega, Nat.add_assoc]
  apply BitVec.eq_of_toNat_eq
  simp only [bswap64, bytes64, byteOf64, List.range_succ, List.range_zero, List.nil_append,
    List.map_cons, List.map_nil, List.cons_append, List.reverse_cons, List.reverse_nil, leNat, Nat.reduceMul]
  rw [swap64, append_toNat, swap32, swap32]
  simp only [append_toNat]
  repeat rw [e _ _ (by omega)]
  rw [BitVec.toNat_ofNat]
  have l := fun k => (v.extractLsb' k 8).isLt
  generalize hb : (fun k => (v.extractLsb' k 8).toNat) = b
  have g : ∀ k, (v.extractLsb' k 8).toNat = b k := fun k => congrFun hb k
  simp only [g, Nat.reduceAdd] at l ⊢
  have := l 0; have := l 8; have := l 16; have := l 24; have := l 32; have := l 40; have := l 48; have := l 56
  omega

/-- The mixer on 16 bytes and a secret slice inside the table (R88). -/
theorem mix16B_ok {in16 : List Byte} (h : in16.length = 16) {so : Nat} (hs : so ≤ 176) (seed : U64) :
    mix16B Config.params in16 so seed = .ok (mix in16 seed 0 so) := by
  rw [mix16B, le64_ok (by omega), le64_ok (by omega), k64_ok (by omega), k64_ok (by omega)]
  simp [mul128Fold64_params, mix]

/-- The mixer on 16 bytes of the input (R88). -/
theorem mixAt_ok {B : List Byte} {p so : Nat} (h : p + 16 ≤ B.length) (hs : so ≤ 176) (s : U64) :
    mixAt Config.params B s p so = .ok (mix B s p so) := by
  rw [mixAt, readBytes_ok h, ok_bind, mix16B_ok (by simp; omega) hs]
  simp [mix, word64At_take, word64At_drop]

end Sys2Proof.Laws
end

