-- ==== Sys2Proof/Laws/Engine.lean ====
section
/-! SUPPORT. The loops of the two lane engines as folds: what `foldBlocks32`, `foldBlocks64` and the tails answer when
their reads are in bounds (spec/41_xxhash32_engine.md R122, R125; spec/42_xxhash64_engine.md R144, R145). -/

namespace Sys2Proof.Laws

open Machine Spec

/-- The first element first, for any step `f`. -/
theorem foldl_range_succ {α : Type} (f : α → Nat → α) (x : α) (k : Nat) :
    (List.range (k + 1)).foldl f x = (List.range k).foldl (fun a i => f a (i + 1)) (f x 0) := by
  rw [List.range_succ_eq_map, List.foldl_cons, List.foldl_map]

/-! ### Lanes -/

theorem round32_eq (acc w : U32) : Machine.round32 acc w = Spec.round32 acc w := by
  simp only [Machine.round32, rotl32_eq, Spec.round32, p32_1_eq, p32_2_eq]

theorem round64_eq (acc w : U64) : Machine.round64 Config.params acc w = Spec.round64 acc w := by
  simp only [Machine.round64, rotl64_eq, Spec.round64, p64_2_eq, prime64_1_eq]

theorem merge64_eq (h v : U64) : Machine.merge64 Config.params h v = Spec.merge64 h v := by
  unfold Machine.merge64 Spec.merge64
  rw [round64_eq, p64_4_eq, prime64_1_eq]

theorem lanes64Init_eq (s : U64) : lanes64Init Config.params s = lanesOf s := by
  simp only [lanes64Init, lanesOf, p64_2_eq, prime64_1_eq]

theorem converge64_eq (v : Lanes64) : Machine.converge64 Config.params v = Spec.converge64 v := by
  simp only [Machine.converge64, merge64_eq, rotl64_eq, Spec.converge64]

theorem converge32_eq (v : Lanes32) :
    converge32 v = v.v1.rotateLeft 1 + v.v2.rotateLeft 7 + v.v3.rotateLeft 12 + v.v4.rotateLeft 18 := by
  simp only [converge32, rotl32_eq]

theorem lane64_zero (B : List Byte) (x : U64) (a : Nat) : lane64 B 0 x a = x := rfl

/-- The first block first. -/
theorem lane64_succ (B : List Byte) (k : Nat) (x : U64) (a : Nat) :
    lane64 B (k + 1) x a = lane64 (B.drop 32) k (Spec.round64 x (word64At B a)) a := by
  unfold lane64
  generalize Spec.round64 = f
  have e : ∀ i, 32 * (i + 1) + a = 32 + (32 * i + a) := fun i => by omega
  simp only [foldl_range_succ, word64At_drop, Nat.mul_zero, Nat.zero_add, e]

/-- `k` blocks, then `m` more. -/
theorem lane64_add (B : List Byte) (k m : Nat) (x : U64) (a : Nat) :
    lane64 B (k + m) x a = lane64 (B.drop (32 * k)) m (lane64 B k x a) a := by
  induction k generalizing B x with
  | zero => simp [lane64_zero]
  | succ k ih =>
    rw [show k + 1 + m = k + m + 1 by omega, lane64_succ, ih, lane64_succ, List.drop_drop]
    rw [show 32 + 32 * k = 32 * (k + 1) by omega]

/-- The first `k` blocks depend on the first `32 * k` bytes alone. -/
theorem lane64_append (A B : List Byte) (k : Nat) (x : U64) (a : Nat) (h : 32 * k ≤ A.length) (ha : a + 8 ≤ 32) :
    lane64 (A ++ B) k x a = lane64 A k x a := by
  induction k generalizing A x with
  | zero => rw [lane64_zero, lane64_zero]
  | succ k ih =>
    rw [lane64_succ (A ++ B), lane64_succ A, word64At_append_left (show a + 8 ≤ A.length by omega),
      List.drop_append_of_le_length (show 32 ≤ A.length by omega), ih (A.drop 32) _ (by rw [List.length_drop]; omega)]

theorem lanes64_zero (B : List Byte) (v : Lanes64) : lanes64 B 0 v = v := rfl

theorem lanes64_add (B : List Byte) (k m : Nat) (v : Lanes64) :
    lanes64 B (k + m) v = lanes64 (B.drop (32 * k)) m (lanes64 B k v) := by
  simp only [lanes64, lane64_add]

theorem lanes64_append (A B : List Byte) (k : Nat) (v : Lanes64) (h : 32 * k ≤ A.length) :
    lanes64 (A ++ B) k v = lanes64 A k v := by
  simp only [lanes64]
  rw [lane64_append _ _ _ _ _ h (by omega), lane64_append _ _ _ _ _ h (by omega), lane64_append _ _ _ _ _ h (by omega),
    lane64_append _ _ _ _ _ h (by omega)]

/-- `k` block steps that stay in bounds take word j of each block into lane j (R145, R152). -/
theorem foldBlocks64_ok {sp : Space} {B : List Byte} {k p : Nat} {v : Lanes64} (h : p + 32 * k ≤ B.length) :
    foldBlocks64 Config.params sp B k p v = .ok (lanes64 (B.drop p) k v) := by
  induction k generalizing p v with
  | zero => rfl
  | succ k ih =>
    rw [foldBlocks64, block64Step, le64_ok (by omega), le64_ok (by omega), le64_ok (by omega), le64_ok (by omega)]
    simp only [ok_bind, pure_ok, Config.block64]
    rw [ih (by omega)]
    simp only [lanes64, lane64_succ, round64_eq, word64At_drop, List.drop_drop, Nat.add_zero]

/-- A lane of the 32-bit engine after `k` blocks from the start of `B`. -/
theorem foldBlocks32_ok {B : List Byte} {k p : Nat} {v : Lanes32} (h : p + 16 * k ≤ B.length) :
    foldBlocks32 B k p v = .ok
      ⟨(List.range k).foldl (fun acc i => Spec.round32 acc (word32At B (p + 16 * i))) v.v1,
        (List.range k).foldl (fun acc i => Spec.round32 acc (word32At B (p + 16 * i + 4))) v.v2,
        (List.range k).foldl (fun acc i => Spec.round32 acc (word32At B (p + 16 * i + 8))) v.v3,
        (List.range k).foldl (fun acc i => Spec.round32 acc (word32At B (p + 16 * i + 12))) v.v4⟩ := by
  induction k generalizing p v with
  | zero => rfl
  | succ k ih =>
    rw [foldBlocks32, block32Step, le32_ok (by omega), le32_ok (by omega), le32_ok (by omega), le32_ok (by omega)]
    simp only [ok_bind, pure_ok, Config.block32]
    rw [ih (by omega)]
    have e : ∀ i, p + 16 + 16 * i = p + 16 * (i + 1) := fun i => by omega
    simp only [foldl_range_succ, round32_eq, Nat.mul_zero, Nat.add_zero, e]

/-! ### Tails -/

theorem tailWords32_ok {B : List Byte} {k p : Nat} {h : U32} (hb : p + 4 * k ≤ B.length) :
    tailWords32 B k p h = .ok ((List.range k).foldl
      (fun h i => (h + word32At B (p + 4 * i) * 3266489917).rotateLeft 17 * 668265263) h) := by
  induction k generalizing p h with
  | zero => rfl
  | succ k ih =>
    rw [tailWords32, le32_ok (by omega), ok_bind, ih (by omega)]
    have e : ∀ i, p + 4 + 4 * i = p + 4 * (i + 1) := fun i => by omega
    simp only [foldl_range_succ, rotl32_eq, p32_3_eq, p32_4_eq, Nat.mul_zero, Nat.add_zero, e]

theorem tailBytes32_ok {B : List Byte} {k p : Nat} {h : U32} (hb : p + k ≤ B.length) :
    tailBytes32 B k p h = .ok ((List.range k).foldl
      (fun h i => (h + (byteAt B (p + i)).setWidth 32 * 374761393).rotateLeft 11 * 2654435761) h) := by
  induction k generalizing p h with
  | zero => rfl
  | succ k ih =>
    rw [tailBytes32, read8_ok (by omega), ok_bind, ih (by omega)]
    have e : ∀ i, p + 1 + i = p + (i + 1) := fun i => by omega
    simp only [foldl_range_succ, rotl32_eq, p32_1_eq, p32_5_eq, Nat.add_zero, e]

theorem tailWords64_ok {sp : Space} {T : List Byte} {k p : Nat} {h : U64} (hb : p + 8 * k ≤ T.length) :
    tailWords64 Config.params sp T k p h = .ok ((List.range k).foldl
      (fun h i => (h ^^^ Spec.round64 0 (word64At T (p + 8 * i))).rotateLeft 27 * 11400714785074694791 +
        9650029242287828579) h) := by
  induction k generalizing p h with
  | zero => rfl
  | succ k ih =>
    rw [tailWords64, le64_ok (by omega), ok_bind, ih (by omega)]
    have e : ∀ i, p + 8 + 8 * i = p + 8 * (i + 1) := fun i => by omega
    simp only [foldl_range_succ, tailStep8, rotl64_eq, round64_eq, p64_4_eq, prime64_1_eq, Nat.mul_zero, Nat.add_zero, e]

theorem tailBytes64_ok {sp : Space} {T : List Byte} {k p : Nat} {h : U64} (hb : p + k ≤ T.length) :
    tailBytes64 Config.params sp T k p h = .ok ((List.range k).foldl
      (fun h i => (h ^^^ (byteAt T (p + i)).setWidth 64 * 2870177450012600261).rotateLeft 11 *
        11400714785074694791) h) := by
  induction k generalizing p h with
  | zero => rfl
  | succ k ih =>
    rw [tailBytes64, read8_ok (by omega), ok_bind, ih (by omega)]
    have e : ∀ i, p + 1 + i = p + (i + 1) := fun i => by omega
    simp only [foldl_range_succ, tailStep1, rotl64_eq, p64_5_eq, prime64_1_eq, Nat.add_zero, e]

/-- The tail never reads out of bounds, whatever its length (R144). -/
theorem tail64_ok (sp : Space) (h : U64) (T : List Byte) :
    Machine.tail64 Config.params sp h T = .ok (Spec.tail64 h T) := by
  have e : 8 * (T.length / 8) + 4 * ((T.length - 8 * (T.length / 8)) / 4) = 4 * (T.length / 4) := by omega
  have r : T.length - 4 * (T.length / 4) = T.length % 4 := by omega
  have c : (4 ≤ T.length - 8 * (T.length / 8)) ↔ ¬ T.length % 8 < 4 := by omega
  simp only [Machine.tail64, tailWords64_ok (show 0 + 8 * (T.length / 8) ≤ T.length by omega), ok_bind, e, r,
    Nat.zero_add]
  by_cases h4 : T.length % 8 < 4
  · rw [tailWord32, if_neg (by omega), ok_bind, tailBytes64_ok (by omega), Spec.tail64]
    simp only [h4, if_true, ok_bind, pure_ok, avalanche64_eq]
  · rw [tailWord32, if_pos (by omega), le32_ok (by omega)]
    simp only [ok_bind, pure_ok, tailStep4, rotl64_eq, p64_2_eq, p64_3_eq, prime64_1_eq, zext64]
    rw [tailBytes64_ok (by omega), Spec.tail64]
    simp only [h4, if_false, ok_bind, avalanche64_eq]

end Sys2Proof.Laws
end

