-- ==== Sys2Proof/Laws/Hash128.lean ====
section
/-! SUPPORT. The parts of the 128-bit dispatcher over total reads: accumulating loops as sums, the packed word and the
joined words of the short classes, one tier, one stripe (spec/43_xxhash3_128_dispatcher.md R172 to R178). -/

namespace Sys2Proof.Laws

open Machine Spec

/-- A loop that adds to one accumulator answers the sum. -/
theorem foldlM_sum (f : U64 → Nat → Except Fault U64) (a : Nat → U64) (l : List Nat)
    (h : ∀ acc, ∀ t ∈ l, f acc t = .ok (acc + a t)) (acc : U64) : l.foldlM f acc = .ok (acc + (l.map a).sum) := by
  induction l generalizing acc with
  | nil => rw [List.foldlM_nil, List.map_nil, List.sum_nil, pure_ok]; congr 1; exact (BitVec.add_zero acc).symm
  | cons t l ih =>
    rw [List.foldlM_cons, h acc t (by simp), ok_bind, ih fun acc t ht => h acc t (by simp [ht])]
    simp only [List.map_cons, List.sum_cons, BitVec.add_assoc]

/-- A loop that adds to two accumulators answers the two sums. -/
theorem foldlM_sum_pair (f : U64 × U64 → Nat → Except Fault (U64 × U64)) (a b : Nat → U64) (l : List Nat)
    (h : ∀ acc, ∀ t ∈ l, f acc t = .ok (acc.1 + a t, acc.2 + b t)) (acc : U64 × U64) :
    l.foldlM f acc = .ok (acc.1 + (l.map a).sum, acc.2 + (l.map b).sum) := by
  induction l generalizing acc with
  | nil =>
    rw [List.foldlM_nil, List.map_nil, List.map_nil, List.sum_nil, pure_ok]
    congr 1
    exact Prod.ext (BitVec.add_zero acc.1).symm (BitVec.add_zero acc.2).symm
  | cons t l ih =>
    rw [List.foldlM_cons, h acc t (by simp), ok_bind, ih fun acc t ht => h acc t (by simp [ht])]
    simp only [List.map_cons, List.sum_cons, BitVec.add_assoc]

/-- The packed word of class C1_3 as four bytes side by side (R172). -/
theorem pack3_eq (c1 c2 c3 : Byte) {n : Nat} (h : n < 256) :
    pack3 c1 c2 c3 n = c2 ++ (c1 ++ (BitVec.ofNat 8 n ++ c3)) := by
  have e : trunc32 n = (BitVec.ofNat 8 n).setWidth 32 := by
    apply BitVec.eq_of_toNat_eq
    rw [trunc32, BitVec.toNat_setWidth, BitVec.toNat_ofNat, BitVec.toNat_ofNat, Nat.mod_eq_of_lt (b := 2 ^ 8) h]
  rw [pack3, e, ← or_bytes_eq_append]
  generalize c1.setWidth 32 <<< 16 = x
  generalize c2.setWidth 32 <<< 24 = y
  generalize (BitVec.ofNat 8 n).setWidth 32 <<< 8 = z
  rw [BitVec.or_comm x y, BitVec.or_assoc, BitVec.or_assoc, BitVec.or_assoc, BitVec.or_comm z]
  simp only [BitVec.or_assoc]

/-- Two 32-bit words joined, the first above (R173). -/
theorem join32_eq (x y : U32) : zext64 y + (zext64 x <<< 32) = x ++ y := by
  apply BitVec.eq_of_toNat_eq
  have := x.isLt
  have := y.isLt
  rw [BitVec.toNat_add, BitVec.toNat_shiftLeft, Nat.shiftLeft_eq, zext64, zext64, BitVec.toNat_setWidth,
    BitVec.toNat_setWidth]
  refine Eq.trans ?_ (append_toNat x y).symm
  omega

/-- The folded seed of class C4_8 (R173). -/
theorem seed4to8_eq (s : U64) : seed4to8 s = s ^^^ (swap32 (s.extractLsb' 0 32) ++ 0#32) := by
  have z : zext64 0#32 = 0#64 := rfl
  rw [seed4to8, bswap32_eq, lo32, ← join32_eq, z]
  exact congrArg _ (BitVec.zero_add _).symm

/-- A tier that runs adds its two windows to each accumulator (R175). -/
theorem tier17to128_ok {B : List Byte} {s : U64} {acc : U64 × U64} {t : Nat} (ht : t < 4) (h : 32 * t < B.length)
    (h17 : 17 ≤ B.length) :
    tier17to128 Config.params B s acc t = .ok
      (acc.1 + (mix B s (16 * t) (32 * t) + mix B s (B.length - 16 * (t + 1)) (32 * t + 16)),
        acc.2 + (mix B s (B.length - 16 * (t + 1)) (32 * t) + mix B s (16 * t) (32 * t + 16))) := by
  rw [tier17to128, if_pos h]
  simp only []
  rw [mixAt_ok (by omega) (by omega), mixAt_ok (by omega) (by omega), mixAt_ok (by omega) (by omega),
    mixAt_ok (by omega) (by omega)]
  simp only [ok_bind, pure_ok, BitVec.add_assoc]

/-- A tier that does not run leaves the accumulators (R175). -/
theorem tier17to128_off {B : List Byte} {s : U64} {acc : U64 × U64} {t : Nat} (h : ¬ 32 * t < B.length) :
    tier17to128 Config.params B s acc t = .ok acc := by rw [tier17to128, if_neg h]

theorem addMix_ok {B : List Byte} {s acc : U64} {p so : Nat} (h : p + 16 ≤ B.length) (hs : so ≤ 176) :
    addMix Config.params B s acc p so = .ok (acc + mix B s p so) := by
  rw [addMix, mixAt_ok h hs, ok_bind, pure_ok]

/-- A stripe inside the input adds its sum to each accumulator (R178). -/
theorem longStripe_ok {B : List Byte} {off : Nat} {pert : U64} {acc : U64 × U64} (h : off + 64 ≤ B.length) :
    longStripe Config.params B off pert acc = .ok (acc.1 + stripeSum B off pert, acc.2 + stripeSum B off (pert + 1)) := by
  rw [longStripe, foldlM_sum_pair _ (fun j => mix32 (word64At B (off + 8 * j)) (K64 (8 * j) + pert))
    (fun j => mix32 (word64At B (off + 8 * j)) (K64 (8 * j) + (pert + 1)))]
  · simp only [stripeSum]
  · intro acc j hj
    simp only [List.mem_range] at hj
    rw [longWord, le64_ok (by omega), ok_bind, k64_ok (by omega), ok_bind, pure_ok, mix32x32_eq, mix32x32_eq,
      BitVec.add_assoc]

end Sys2Proof.Laws
end

