-- ==== Sys2Proof/Laws/Memory.lean ====
section
/-! SUPPORT. The pending buffer: a read after a write, a write leaves every other byte alone, every write keeps the
canonical form, and what `bufTake` and `bufStore` answer. -/

namespace Sys2Proof.Laws

open Machine

theorem get_put (m : Memory) (k : Nat) (b : Byte) (j : Nat) :
    (m.put k b).get j = if j = k then some b else m.get j := by
  induction m with
  | nil => simp [Memory.put, Memory.get, eq_comm]
  | cons c m ih =>
    obtain ⟨i, x⟩ := c
    simp only [Memory.put]
    split
    · simp [Memory.get, eq_comm]
    · split
      · subst_vars
        by_cases h : i = j
        · simp [Memory.get, h]
        · simp [Memory.get, h, Ne.symm h]
      · by_cases h : i = j
        · subst h; simp [Memory.get]; omega
        · simp [Memory.get, h, ih]

theorem get_putAll (m : Memory) (off : Nat) (bs : List Byte) (j : Nat) :
    (m.putAll off bs).get j = if off ≤ j ∧ j < off + bs.length then bs[j - off]? else m.get j := by
  induction bs generalizing m off with
  | nil =>
    have : ¬ (off ≤ j ∧ j < off + ([] : List Byte).length) := by simp
    rw [if_neg this, Memory.putAll]
  | cons b bs ih =>
    rw [Memory.putAll, ih, get_put]
    rcases Nat.lt_trichotomy j off with h | rfl | h
    · simp [show ¬ off + 1 ≤ j by omega, show ¬ off ≤ j by omega, show j ≠ off by omega]
    · simp
    · simp only [show off + 1 ≤ j by omega, show off ≤ j by omega, show j ≠ off by omega, true_and, if_false,
        List.length_cons, show off + 1 + bs.length = off + (bs.length + 1) by omega]
      split
      · rw [show j - off = (j - (off + 1)) + 1 by omega, List.getElem?_cons_succ]
      · rfl

theorem risesFrom_mono {m : Memory} {lo lo' : Nat} (h : lo' ≤ lo) (w : m.risesFrom lo = true) :
    m.risesFrom lo' = true := by
  cases m with
  | nil => rfl
  | cons c m =>
    simp only [Memory.risesFrom, Bool.and_eq_true, decide_eq_true_eq] at w ⊢
    exact ⟨⟨by omega, w.1.2⟩, w.2⟩

theorem risesFrom_put {m : Memory} {lo off : Nat} (b : Byte) (w : m.risesFrom lo = true) (h : lo ≤ off)
    (h' : off < Config.bufSize) : (m.put off b).risesFrom lo = true := by
  induction m generalizing lo with
  | nil => simp [Memory.put, Memory.risesFrom, h, h']
  | cons c m ih =>
    obtain ⟨i, x⟩ := c
    simp only [Memory.risesFrom, Bool.and_eq_true, decide_eq_true_eq] at w
    simp only [Memory.put]
    split
    · simp only [Memory.risesFrom, Bool.and_eq_true, decide_eq_true_eq]
      exact ⟨⟨h, h'⟩, ⟨by omega, w.1.2⟩, w.2⟩
    · split
      · subst_vars
        simp only [Memory.risesFrom, Bool.and_eq_true, decide_eq_true_eq]
        exact w
      · simp only [Memory.risesFrom, Bool.and_eq_true, decide_eq_true_eq]
        exact ⟨w.1, ih w.2 (by omega)⟩

/-- Every store keeps the canonical form. -/
theorem putAll_wf {m : Memory} {off : Nat} {bs : List Byte} (w : m.wf = true)
    (h : off + bs.length ≤ Config.bufSize) : (m.putAll off bs).wf = true := by
  induction bs generalizing m off with
  | nil => exact w
  | cons b bs ih =>
    simp only [List.length_cons] at h
    exact ih (risesFrom_put b w (Nat.zero_le _) (by omega)) (by omega)

theorem bufStore_ok {m : Memory} {off : Nat} {bs : List Byte} (h : off + bs.length ≤ Config.bufSize) :
    bufStore m off bs = .ok (m.putAll off bs) := by simp [bufStore, h]

/-- All a store can do: it answers the buffer with the bytes written, and they fit in it. -/
theorem bufStore_eq_ok {m m' : Memory} {off : Nat} {bs : List Byte} (h : bufStore m off bs = .ok m') :
    off + bs.length ≤ Config.bufSize ∧ m' = m.putAll off bs := by
  unfold bufStore at h
  split at h
  · cases h; exact ⟨by assumption, rfl⟩
  · cases h

theorem get_put_self {m : Memory} {lo off : Nat} {b : Byte} (w : m.risesFrom lo = true) (h : m.get off = some b) :
    m.put off b = m ∧ lo ≤ off := by
  induction m generalizing lo with
  | nil => simp [Memory.get] at h
  | cons c m ih =>
    obtain ⟨i, x⟩ := c
    simp only [Memory.risesFrom, Bool.and_eq_true, decide_eq_true_eq] at w
    by_cases e : i = off
    · subst e
      simp [Memory.get] at h
      simp [Memory.put, h, w.1.1]
    · simp [Memory.get, e] at h
      obtain ⟨h1, h2⟩ := ih w.2 h
      simp only [Memory.put, show ¬ off < i by omega, show ¬ off = i by omega, if_false, h1, true_and]
      omega

/-- Writing the bytes that already stand there changes nothing. -/
theorem putAll_self {m : Memory} {off : Nat} {bs : List Byte} (w : m.wf = true)
    (h : ∀ k < bs.length, m.get (off + k) = bs[k]?) : m.putAll off bs = m := by
  induction bs generalizing off with
  | nil => rfl
  | cons b bs ih =>
    rw [Memory.putAll, (get_put_self w (by simpa using h 0 (by simp))).1]
    apply ih
    intro k hk
    have := h (k + 1) (by simpa using hk)
    simpa [Nat.add_assoc, Nat.add_comm 1 k] using this

theorem bufRead_ok {m : Memory} {off : Nat} {b : Byte} (h : off < Config.bufSize) (g : m.get off = some b) :
    bufRead m off = .ok b := by simp [bufRead, h, g]

/-- Written bytes inside the buffer are read, in order. -/
theorem bufTake_ok {m : Memory} {off n : Nat} (h : off + n ≤ Config.bufSize)
    (w : ∀ k < n, (m.get (off + k)).isSome = true) :
    ∃ bs, bufTake m off n = .ok bs ∧ bs.length = n ∧ ∀ k < n, m.get (off + k) = bs[k]? := by
  induction n generalizing off with
  | zero => exact ⟨[], rfl, rfl, by simp⟩
  | succ n ih =>
    obtain ⟨b, hb⟩ := Option.isSome_iff_exists.mp (w 0 (by omega))
    obtain ⟨bs, h1, h2, h3⟩ := ih (off := off + 1) (by omega) fun k hk => by
      simpa [Nat.add_assoc, Nat.add_comm 1 k] using w (k + 1) (by omega)
    refine ⟨b :: bs, ?_, by simp [h2], ?_⟩
    · rw [bufTake, bufRead_ok (by omega) (by simpa using hb), ok_bind, h1, ok_bind, pure_ok]
    · intro k hk
      cases k with
      | zero => simpa using hb
      | succ k => simpa [Nat.add_assoc, Nat.add_comm 1 k] using h3 k (by omega)

/-- What a read of the buffer answers depends on its bytes alone. -/
theorem bufTake_congr {m m' : Memory} {off n : Nat} (h : ∀ k < n, m.get (off + k) = m'.get (off + k)) :
    bufTake m off n = bufTake m' off n := by
  induction n generalizing off with
  | zero => rfl
  | succ n ih =>
    have h0 : m.get off = m'.get off := by simpa using h 0 (by omega)
    rw [bufTake, bufTake, ih (off := off + 1) fun k hk => by
      simpa [Nat.add_assoc, Nat.add_comm 1 k] using h (k + 1) (by omega)]
    simp only [bufRead, h0]

/-- A read after a store gives the bytes stored. -/
theorem bufTake_putAll {m : Memory} {off : Nat} {bs : List Byte} (h : off + bs.length ≤ Config.bufSize) :
    bufTake (m.putAll off bs) off bs.length = .ok bs := by
  have g : ∀ k < bs.length, (m.putAll off bs).get (off + k) = bs[k]? := fun k hk => by
    rw [get_putAll, if_pos ⟨by omega, by omega⟩, Nat.add_sub_cancel_left]
  obtain ⟨cs, h1, h2, h3⟩ := bufTake_ok h (m := m.putAll off bs) fun k hk => by simp [g k hk, hk]
  rw [h1]
  congr 1
  apply List.ext_getElem?
  intro k
  by_cases hk : k < bs.length
  · rw [← h3 k hk, g k hk]
  · rw [List.getElem?_eq_none (by omega), List.getElem?_eq_none (by omega)]

/-- The bytes taken from BUF are the ones listed there. -/
theorem get_of_bufTake {m : Memory} {off n : Nat} {bs : List Byte} (h : bufTake m off n = .ok bs) :
    bs.length = n ∧ ∀ k < n, m.get (off + k) = bs[k]? := by
  induction n generalizing off bs with
  | zero => cases h; simp
  | succ n ih =>
    rw [bufTake] at h
    obtain ⟨b, h1, h⟩ := bind_eq_ok h
    obtain ⟨cs, h2, h⟩ := bind_eq_ok h
    cases h
    obtain ⟨l, g⟩ := ih h2
    refine ⟨by simp [l], fun k hk => ?_⟩
    cases k with
    | zero =>
      unfold bufRead at h1
      split at h1
      · split at h1
        · rename_i hg; cases h1; simpa using hg
        · cases h1
      · cases h1
    | succ k =>
      have := g k (by omega)
      simpa [Nat.add_assoc, Nat.add_comm 1 k] using this

end Sys2Proof.Laws
end

