-- ==== Sys2Proof/Laws/PerInstr.lean ====
section
/-! SUPPORT. What is said of each command as syntax, one lemma per constructor. Family `Encoding`: the word of a
well-formed command carries RSV = 0, the command's opcode, and its R and K fields (spec/30_encoding.md R63, R73). -/

namespace Sys2Proof.Laws.Encoding

/-- The fields of `encode i` are those of `i`. -/
def Statement (i : Instr) : Prop :=
  i.wellFormed = true →
    rsvOf (encode i) = 0 ∧ opcOf (encode i) = i.opcode ∧ (rOf (encode i)).toNat = i.rField ∧
      (kOf (encode i)).toNat = i.kField

theorem of_fields {i : Instr} (hr : i.rField < 64) (hk : i.kField < 256) : Statement i := fun _ => by
  unfold encode
  rw [rsvOf_wordOf, opcOf_wordOf, rOf_wordOf, kOf_wordOf, BitVec.toNat_ofNat, BitVec.toNat_ofNat,
    Nat.mod_eq_of_lt hr, Nat.mod_eq_of_lt hk]
  exact ⟨rfl, rfl, rfl, rfl⟩

theorem hash32 : Statement .hash32 := of_fields (by decide) (by decide)
theorem hash64 : Statement .hash64 := of_fields (by decide) (by decide)
theorem hash128 : Statement .hash128 := of_fields (by decide) (by decide)
theorem h64Init : Statement .h64Init := of_fields (by decide) (by decide)
theorem h64Update : Statement .h64Update := of_fields (by decide) (by decide)
theorem h64Final : Statement .h64Final := of_fields (by decide) (by decide)
theorem rotl32 (r : Nat) : Statement (.rotl32 r) := fun w =>
  of_fields (of_decide_eq_true w) (show 0 < 256 by decide) w
theorem rotl64 (r : Nat) : Statement (.rotl64 r) := fun w =>
  of_fields (of_decide_eq_true w) (show 0 < 256 by decide) w
theorem bswap32 : Statement .bswap32 := of_fields (by decide) (by decide)
theorem bswap64 : Statement .bswap64 := of_fields (by decide) (by decide)
theorem aval64 : Statement .aval64 := of_fields (by decide) (by decide)
theorem aval3 : Statement .aval3 := of_fields (by decide) (by decide)
theorem rrmxmx : Statement .rrmxmx := of_fields (by decide) (by decide)
theorem mul128fold64 : Statement .mul128fold64 := of_fields (by decide) (by decide)
theorem mix16b (k : Nat) : Statement (.mix16b k) := fun w =>
  of_fields (show 0 < 64 by decide) (of_decide_eq_true w) w
theorem secretRd32 (k : Nat) : Statement (.secretRd32 k) := fun w =>
  of_fields (show 0 < 64 by decide) (of_decide_eq_true w) w
theorem secretRd64 (k : Nat) : Statement (.secretRd64 k) := fun w =>
  of_fields (show 0 < 64 by decide) (of_decide_eq_true w) w

end Sys2Proof.Laws.Encoding
end

