-- ==== Sys2Proof/Laws/Step.lean ====
section
/-! SUPPORT. All that a step can do, said once: how a step reaches a next state, and the four ways a command ends in
one. -/

namespace Sys2Proof.Laws

open Machine

theorem issuable_iff (c : Command) : c.issuable = true ↔ c.data.length < 2 ^ 64 := by
  unfold Command.issuable Config.lenW
  exact decide_eq_true_iff

/-- A command that can be issued is captured and run. -/
theorem step_captured {s : State} {c : Command} {rest : List Command} (h : s.pending = c :: rest)
    (hl : c.data.length < 2 ^ 64) : step s = runCaptured (s.capture c rest) := by
  rw [step, State.issue, h]
  simp only [issuable_iff, hl, if_true]

/-- A command that cannot be issued is refused. -/
theorem step_tooLong {s : State} {c : Command} {rest : List Command} (h : s.pending = c :: rest)
    (hl : ¬ c.data.length < 2 ^ 64) : step s = .refused .dataTooLong := by
  rw [step, State.issue, h]
  simp only [issuable_iff, hl, if_false]

/-- With no command presented a step holds its state. -/
theorem step_idle {s : State} (h : s.pending = []) : step s = .next s := by rw [step, State.issue, h]

/-- A run of one more step, on any machine. -/
theorem run_succ (M : Host.Core) (n : Nat) (s : M.State) : Host.Core.run M (n + 1) s =
    match M.step s with
    | .next t => Host.Core.run M n t
    | .fault f => .fault f
    | .refused r => .refused r := rfl

/-- A run whose first step answers a next state goes on from it. -/
theorem run_next {M : Host.Core} {s t : M.State} (n : Nat) (h : M.step s = .next t) :
    Host.Core.run M (n + 1) s = Host.Core.run M n t := by rw [run_succ, h]

/-- A run in two parts. -/
theorem run_add {M : Host.Core} {n : Nat} {s t : M.State} (m : Nat) (h : Host.Core.run M n s = .next t) :
    Host.Core.run M (n + m) s = Host.Core.run M m t := by
  induction n generalizing s with
  | zero => cases h; rw [Nat.zero_add]
  | succ n ih =>
    rw [run_succ] at h
    rw [show n + 1 + m = (n + m) + 1 by omega, run_succ]
    cases hs : M.step s with
    | next u => rw [hs] at h; exact ih h
    | fault f => rw [hs] at h; cases h
    | refused f => rw [hs] at h; cases h

/-- How a step reaches a next state: it holds, or it runs the command the next word decodes to, or it raises ILLEGAL. -/
theorem step_eq_next {s t : State} (h : step s = .next t) :
    (s.pending = [] ∧ t = s) ∨ ∃ c rest, s.pending = c :: rest ∧ c.data.length < 2 ^ 64 ∧
      ((∃ i, decodeWord c.word = .ok i ∧ exec i (s.capture c rest) = .next t) ∨
        ∃ e, decodeWord c.word = .error e ∧ t = (s.capture c rest).respond ⟨1, 0, 0⟩) := by
  cases hp : s.pending with
  | nil => rw [step_idle hp] at h; cases h; exact .inl ⟨rfl, rfl⟩
  | cons c rest =>
    by_cases hl : c.data.length < 2 ^ 64
    · refine .inr ⟨c, rest, rfl, hl, ?_⟩
      rw [step_captured hp hl, runCaptured, capture_cmd] at h
      cases hd : decodeWord c.word with
      | ok i => rw [hd] at h; exact .inl ⟨i, rfl, h⟩
      | error e => rw [hd] at h; cases h; exact .inr ⟨e, rfl, rfl⟩
    · rw [step_tooLong hp hl] at h; cases h

/-- The ways the command `i` ends in a next state: a response alone, which for a streaming command is STATE outside
ACTIVE, or the one change each streaming command makes to `ctx`. -/
inductive Effect : Instr → State → State → Prop
  | respond {i : Instr} {s : State} (r : Response) (hr : r.status = 0 ∨ r = .err .state ∨ r = .err .range)
      (hs : i.streaming = true → r = .err .state ∧ s.ctx.st ≠ .active) : Effect i s (s.respond r)
  | init {s : State} : Effect .h64Init s ((s.setCtx (s.ctx.start Config.params s.cmd.seed)).respond ⟨0, 0, 0⟩)
  | update {s : State} {c : Ctx} (ha : s.ctx.st = .active) (hc : s.ctx.update Config.params s.cmd.data = .ok c) :
      Effect .h64Update s ((s.setCtx c).respond ⟨0, 0, 0⟩)
  | final {s : State} {x : U64} (ha : s.ctx.st = .active) (hc : s.ctx.result Config.params = .ok x) :
      Effect .h64Final s ((s.setCtx s.ctx.finish).respond ⟨0, x, 0⟩)

/-- A command that answers a next state does one of these. -/
theorem exec_effect {i : Instr} {s t : State} (h : exec i s = .next t) : Effect i s t := by
  have one : ∀ {lo hi}, i.streaming = false → t = s.respond (.ok lo hi) → Effect i s t := by
    rintro lo hi hi' rfl
    exact .respond _ (.inl rfl) (by rw [hi']; intro h; cases h)
  cases i with
  | hash32 => obtain ⟨r, _, h⟩ := complete32_eq_next h; exact one rfl h
  | hash64 => obtain ⟨r, _, h⟩ := complete64_eq_next h; exact one rfl h
  | hash128 => obtain ⟨lo, hi, _, h⟩ := complete_eq_next h; exact one rfl h
  | h64Init => cases h; exact .init
  | h64Update =>
    change execH64Update s = _ at h
    unfold execH64Update at h
    split at h
    · rename_i ha
      split at h
      · rename_i c hc; cases h; exact .update ha hc
      · cases h
    · rename_i ha
      cases h; exact .respond _ (.inr (.inl rfl)) fun _ => ⟨rfl, ha⟩
  | h64Final =>
    change execH64Final s = _ at h
    unfold execH64Final at h
    split at h
    · rename_i ha
      obtain ⟨r, hr, h⟩ := complete64_eq_next h
      subst h; exact .final ha hr
    · rename_i ha
      cases h; exact .respond _ (.inr (.inl rfl)) fun _ => ⟨rfl, ha⟩
  | rotl32 r => cases h; exact one rfl rfl
  | rotl64 r => cases h; exact one rfl rfl
  | bswap32 => cases h; exact one rfl rfl
  | bswap64 => cases h; exact one rfl rfl
  | aval64 => cases h; exact one rfl rfl
  | aval3 => cases h; exact one rfl rfl
  | rrmxmx => cases h; exact one rfl rfl
  | mul128fold64 => cases h; exact one rfl rfl
  | mix16b k =>
    change execMix16b k s = _ at h
    unfold execMix16b at h
    split at h
    · cases h; exact .respond _ (.inr (.inr rfl)) (by intro h; cases h)
    · obtain ⟨r, _, h⟩ := complete64_eq_next h; exact one rfl h
  | secretRd32 k =>
    change execSecretRd32 k s = _ at h
    unfold execSecretRd32 at h
    split at h
    · cases h; exact .respond _ (.inr (.inr rfl)) (by intro h; cases h)
    · obtain ⟨r, _, h⟩ := complete32_eq_next h; exact one rfl h
  | secretRd64 k =>
    change execSecretRd64 k s = _ at h
    unfold execSecretRd64 at h
    split at h
    · cases h; exact .respond _ (.inr (.inr rfl)) (by intro h; cases h)
    · obtain ⟨r, _, h⟩ := complete64_eq_next h; exact one rfl h

end Sys2Proof.Laws
end

