-- ==== Sys2Proof/Laws/Stream.lean ====
section
/-! SUPPORT. What the streaming operations answer: the context after H64_UPDATE and the result of H64_FINAL when the
pending bytes have been written (spec/42_xxhash64_engine.md R151 to R153). -/

namespace Sys2Proof.Laws

open Machine Spec

/-- The bytes of MEM below MEMSIZE, read once. -/
theorem pending_ok {c : Ctx} (w : ∀ k < c.memsize.val, (c.mem.get k).isSome = true) :
    ∃ pend, bufTake c.mem 0 c.memsize = .ok pend ∧ pend.length = c.memsize.val ∧
      ∀ k < c.memsize.val, c.mem.get k = pend[k]? := by
  have := bufTake_ok (m := c.mem) (off := 0) (n := c.memsize.val) (by simp [Config.bufSize])
    (by simpa using w)
  simpa using this

/-- Folding every full block of `W` and storing the rest never leaves a byte space (R152). -/
theorem absorb_ok (c : Ctx) (W : List Byte) :
    c.absorb Config.params W = .ok
      { c with
        v := lanes64 W (W.length / 32) c.v
        mem := c.mem.putAll 0 (W.drop (32 * (W.length / 32)))
        memsize := Fin.ofNat 32 (W.length % 32)
        large := c.large || decide (32 ≤ W.length) } := by
  have l : (W.drop (32 * (W.length / 32))).length = W.length % 32 := by rw [List.length_drop]; omega
  have e : decide (0 < W.length / 32) = decide (32 ≤ W.length) := decide_eq_decide.mpr (by omega)
  simp only [Ctx.absorb, Config.block64]
  rw [foldBlocks64_ok (by omega), ok_bind, bufStore_ok (by rw [l]; simp [Config.bufSize]; omega), ok_bind, pure_ok, l,
    List.drop_zero, largeAfterFold, e]

/-- The context that has taken a chunk after the pending bytes `pend` (R151, R152). -/
def absorbed (c : Ctx) (pend chunk : List Byte) : Ctx :=
  { c with
    v := lanes64 (pend ++ chunk) ((pend ++ chunk).length / 32) c.v
    mem := c.mem.putAll 0 ((pend ++ chunk).drop (32 * ((pend ++ chunk).length / 32)))
    memsize := Fin.ofNat 32 ((pend ++ chunk).length % 32)
    totalLen := c.totalLen + trunc64 chunk.length
    large := c.large || decide (32 ≤ (pend ++ chunk).length) }

/-- H64_UPDATE on a context whose pending bytes have been written (R151, R152). -/
theorem update_ok {c : Ctx} {pend : List Byte} (h : bufTake c.mem 0 c.memsize = .ok pend) (chunk : List Byte) :
    c.update Config.params chunk = .ok (absorbed c pend chunk) := by
  rw [Ctx.update, Ctx.joined, h, ok_bind, pure_ok, ok_bind, absorb_ok]
  simp only [Ctx.count, absorbed]

/-- The result of H64_FINAL on a context whose pending bytes have been written (R153). -/
theorem result_ok {c : Ctx} {pend : List Byte} (h : bufTake c.mem 0 c.memsize = .ok pend) :
    c.result Config.params = .ok
      (Spec.tail64 ((if c.large = true then Spec.converge64 c.v else c.seed + 2870177450012600261) + c.totalLen) pend) := by
  simp only [Ctx.result, h, ok_bind, tail64_ok, converge64_eq, p64_5_eq]

/-- All that H64_UPDATE can do to a context, when it answers one (R151, R152). -/
theorem update_eq_ok {c d : Ctx} {chunk : List Byte} (h : c.update Config.params chunk = .ok d) :
    ∃ pend, bufTake c.mem 0 c.memsize = .ok pend ∧ d = absorbed c pend chunk := by
  have h' := h
  rw [Ctx.update, Ctx.joined] at h
  obtain ⟨W, h1, _⟩ := bind_eq_ok h
  obtain ⟨pend, h2, _⟩ := bind_eq_ok h1
  refine ⟨pend, h2, ?_⟩
  rw [update_ok h2] at h'
  cases h'; rfl

/-- The bytes after the last full block. -/
theorem length_drop_blocks (W : List Byte) : (W.drop (32 * (W.length / 32))).length = W.length % 32 := by
  rw [List.length_drop]; omega

/-- The pending bytes after a chunk are the ones after the last full block (R152). -/
theorem absorbed_get {c : Ctx} {pend chunk : List Byte} {k : Nat} (h : k < (pend ++ chunk).length % 32) :
    (absorbed c pend chunk).mem.get k = (pend ++ chunk)[32 * ((pend ++ chunk).length / 32) + k]? := by
  rw [absorbed, get_putAll, if_pos ⟨Nat.zero_le k, by rw [length_drop_blocks]; omega⟩, Nat.sub_zero, List.getElem?_drop]

theorem absorbed_memsize (c : Ctx) (pend chunk : List Byte) :
    (absorbed c pend chunk).memsize.val = (pend ++ chunk).length % 32 := by simp [absorbed]

/-- The command H64_UPDATE in ACTIVE (R152). -/
theorem h64Update_active {s : State} {pend : List Byte} (ha : s.ctx.st = .active)
    (h : bufTake s.ctx.mem 0 s.ctx.memsize = .ok pend) :
    exec .h64Update s = .next ((s.setCtx (absorbed s.ctx pend s.cmd.data)).respond ⟨0, 0, 0⟩) := by
  change execH64Update s = _
  unfold execH64Update
  rw [if_pos ha, State.opData, update_ok h]
  rfl

/-- The command H64_UPDATE outside ACTIVE (R155). -/
theorem h64Update_inactive {s : State} (ha : s.ctx.st ≠ .active) : exec .h64Update s = s.raise .state := by
  change execH64Update s = _
  unfold execH64Update
  rw [if_neg ha]

/-- The command H64_FINAL outside ACTIVE (R155). -/
theorem h64Final_inactive {s : State} (ha : s.ctx.st ≠ .active) : exec .h64Final s = s.raise .state := by
  change execH64Final s = _
  unfold execH64Final
  rw [if_neg ha]

/-- The command H64_FINAL in ACTIVE (R153, R154). -/
theorem h64Final_active {s : State} {pend : List Byte} (ha : s.ctx.st = .active)
    (h : bufTake s.ctx.mem 0 s.ctx.memsize = .ok pend) :
    exec .h64Final s = .next ((s.setCtx s.ctx.finish).respond
      ⟨0, Spec.tail64 ((if s.ctx.large = true then Spec.converge64 s.ctx.v
        else s.ctx.seed + 2870177450012600261) + s.ctx.totalLen) pend, 0⟩) := by
  change execH64Final s = _
  unfold execH64Final
  rw [if_pos ha, result_ok h]
  rfl

end Sys2Proof.Laws
end

