-- ==== Sys2Proof/Tests/Slice0.lean ====
section
/-! SUPPORT. Tests. Every expected value is taken from spec/95_test_vectors.md (the section is named at each group) or from
the encoding of spec/30_encoding.md; the witnesses show that the hypotheses of the obligations can be met. -/

namespace Sys2Proof.Tests

open Machine

-- One theorem at a time: each kernel evaluation gets a thread with a large stack of its own.
set_option Elab.async false

/-! ### Helpers -/

/-- A state of the reset machine whose host presents one command. -/
def presents (c : Command) : State := { State.reset with pending := [c] }

/-- The response to one command from reset. -/
def answer (word : U32) (seed a b : U64) (data : List Byte) : Option Response :=
  match step (presents ⟨word, seed, a, b, data⟩) with
  | .next t => t.responses.getLast?
  | .fault _ => none
  | .refused _ => none

/-- A state with this streaming context whose host presents one command. -/
def inCtx (c : Ctx) (word : U32) (seed : U64) (data : List Byte) : State :=
  { ctx := c, cmd := Command.none, pending := [⟨word, seed, 0, 0, data⟩], responses := [] }

/-- The response and the context after one command in a streaming context. -/
def after (c : Ctx) (word : U32) (seed : U64) (data : List Byte) : Option (Response × Ctx) :=
  match step (inCtx c word seed data) with
  | .next t => t.responses.getLast?.map fun r => (r, t.ctx)
  | .fault _ => none
  | .refused _ => none

/-- `pat(n)` of spec/95_test_vectors.md. -/
def pat (n : Nat) : List Byte := (List.range n).map (BitVec.ofNat 8)

/-- `zeros(n)` of spec/95_test_vectors.md. -/
def zeros (n : Nat) : List Byte := List.replicate n 0

/-- The outcome is a next state. -/
def isNext : Host.Outcome State Fault Refusal → Bool
  | .next _ => true
  | .fault _ => false
  | .refused _ => false

theorem next_of_isNext {o : Host.Outcome State Fault Refusal} (h : isNext o = true) : ∃ t, o = .next t := by
  cases o with
  | next t => exact ⟨t, rfl⟩
  | fault f => cases h
  | refused f => cases h

/-- `ctx` after line 3 of program P1: the pending bytes "ab". -/
def ctxAb : Ctx where
  st := .active
  v := ⟨0x60EA27EEADC0B5D6, 0xC2B2AE3D27D4EB4F, 0, 0x61C8864E7A143579⟩
  mem := [(0, 0x61), (1, 0x62)]
  memsize := 2
  totalLen := 2
  large := false
  seed := 0

/-- `ctx` after line 5 of program P2: one folded block of pat(40), eight bytes pending. -/
def ctxPat40 : Ctx where
  st := .active
  v := ⟨0xF4B53B57406B5E99, 0xC3D34B511FC32561, 0xCB26C007C8A1553F, 0x9A44D001A7F91C07⟩
  mem := [(0, 0x20), (1, 0x21), (2, 0x22), (3, 0x23), (4, 0x24), (5, 0x25), (6, 0x26), (7, 0x27)]
  memsize := 8
  totalLen := 40
  large := true
  seed := 0

/-! ### WellFormed refuses each field that does not fit its place in the word -/

theorem test_rotl32_amount_of_seven_bits_refused : (Instr.rotl32 64).wellFormed = false := by decide
theorem test_rotl64_amount_of_seven_bits_refused : (Instr.rotl64 64).wellFormed = false := by decide
theorem test_mix16b_offset_of_nine_bits_refused : (Instr.mix16b 256).wellFormed = false := by decide
theorem test_secretRd32_offset_of_nine_bits_refused : (Instr.secretRd32 256).wellFormed = false := by decide
theorem test_secretRd64_offset_of_nine_bits_refused : (Instr.secretRd64 256).wellFormed = false := by decide

/-! ### Words written out from R63 and R67: RSV (10 bits), K (8), R (6), OPC (8) -/

theorem test_word_hash32 : decodeWord 0b0000000000_00000000_000000_00000001#32 = .ok .hash32 := by decide
theorem test_word_hash64 : decodeWord 0b0000000000_00000000_000000_00000010#32 = .ok .hash64 := by decide
theorem test_word_hash128 : decodeWord 0b0000000000_00000000_000000_00000011#32 = .ok .hash128 := by decide
theorem test_word_h64Init : decodeWord 0b0000000000_00000000_000000_00001000#32 = .ok .h64Init := by decide
theorem test_word_h64Update : decodeWord 0b0000000000_00000000_000000_00001001#32 = .ok .h64Update := by decide
theorem test_word_h64Final : decodeWord 0b0000000000_00000000_000000_00001010#32 = .ok .h64Final := by decide
theorem test_word_rotl32 : decodeWord 0b0000000000_00000000_001101_00010000#32 = .ok (.rotl32 13) := by decide
theorem test_word_rotl64 : decodeWord 0b0000000000_00000000_110001_00010001#32 = .ok (.rotl64 49) := by decide
theorem test_word_bswap32 : decodeWord 0b0000000000_00000000_000000_00010010#32 = .ok .bswap32 := by decide
theorem test_word_bswap64 : decodeWord 0b0000000000_00000000_000000_00010011#32 = .ok .bswap64 := by decide
theorem test_word_aval64 : decodeWord 0b0000000000_00000000_000000_00010100#32 = .ok .aval64 := by decide
theorem test_word_aval3 : decodeWord 0b0000000000_00000000_000000_00010101#32 = .ok .aval3 := by decide
theorem test_word_rrmxmx : decodeWord 0b0000000000_00000000_000000_00010110#32 = .ok .rrmxmx := by decide
theorem test_word_mul128fold64 : decodeWord 0b0000000000_00000000_000000_00010111#32 = .ok .mul128fold64 := by decide +kernel
theorem test_word_mix16b : decodeWord 0b0000000000_00010000_000000_00011000#32 = .ok (.mix16b 16) := by decide
theorem test_word_secretRd32 : decodeWord 0b0000000000_10111100_000000_00011001#32 = .ok (.secretRd32 188) := by decide
theorem test_word_secretRd64 : decodeWord 0b0000000000_10111000_000000_00011010#32 = .ok (.secretRd64 184) := by decide

/-- Section 3.1: the encoder gives the command words of the table. -/
theorem test_encoded_words :
    encode (.rotl32 13) = 0x00000D10 ∧ encode (.rotl64 63) = 0x00003F11 ∧ encode (.mix16b 255) = 0x003FC018 ∧
      encode (.secretRd32 189) = 0x002F4019 ∧ encode (.secretRd64 56) = 0x000E001A := by decide

/-- Section 3.1: bits a command does not use are ignored (R71). -/
theorem test_ignored_fields : decodeWord 0x00003F01 = .ok .hash32 ∧ decodeWord 0x003FC002 = .ok .hash64 := by decide

/-- Section 3.1: the illegal words (R68, R69). -/
theorem test_illegal_words :
    decodeWord 0x00000000 = .error .reservedOpcode ∧ decodeWord 0x00000004 = .error .reservedForHash3 ∧
      decodeWord 0x0000000B = .error .reservedOpcode ∧ decodeWord 0x0000001B = .error .reservedOpcode ∧
      decodeWord 0x00400001 = .error .reservedBits ∧ decodeWord 0x80000013 = .error .reservedBits := by decide

/-- The table words of the host's interface are read by the same decoder. -/
theorem test_decodeTableWord : decodeTableWord 32 0x000E001A = some (.secretRd64 56) ∧ decodeTableWord 32 4 = none := by
  decide

/-- A step runs the word that `withFetchWord` places. -/
theorem test_withFetchWord :
    (match step (State.reset.withFetchWord 32 0x000E001A) with
      | .next t => t.responses
      | .fault _ => []
      | .refused _ => []) = [⟨0, 0x4C263A81E69035E0, 0⟩] := by decide +kernel

/-! ### Errors: sections 3.1 and 3.9 -/

theorem test_illegal_answers_status_1 : answer 0x00000004 0 0 0 [] = some ⟨1, 0, 0⟩ := by decide +kernel
theorem test_illegal_masks_state : answer 0x00400009 0 0 0 [] = some ⟨1, 0, 0⟩ := by decide +kernel
theorem test_illegal_masks_range : answer 0x006C4018 0 0 0 [] = some ⟨1, 0, 0⟩ := by decide +kernel

/-! ### Rotates and byte reversal: section 3.2 -/

theorem test_rotl32_ignores_high_half :
    answer 0x00000110 0 0xFFFFFFFF80000001 0 [] = some ⟨0, 0x0000000000000003, 0⟩ := by decide +kernel
theorem test_rotl32_by_63_is_by_31 : answer 0x00003F10 0 0x12345678 0 [] = some ⟨0, 0x00000000091A2B3C, 0⟩ := by decide +kernel
theorem test_rotl64_by_49 :
    answer 0x00003111 0 0x0123456789ABCDEF 0 [] = some ⟨0, 0x9BDE02468ACF1357, 0⟩ := by decide +kernel
theorem test_rotl64_by_0 :
    answer 0x00000011 0 0x0123456789ABCDEF 0 [] = some ⟨0, 0x0123456789ABCDEF, 0⟩ := by decide +kernel
theorem test_bswap32_ignores_high_half :
    answer 0x00000012 0 0xAAAAAAAA12345678 0 [] = some ⟨0, 0x0000000078563412, 0⟩ := by decide +kernel
theorem test_bswap64 : answer 0x00000013 0 0x0123456789ABCDEF 0 [] = some ⟨0, 0xEFCDAB8967452301, 0⟩ := by
  decide +kernel

/-! ### Finalizers and mixers: sections 3.3 to 3.5 -/

theorem test_aval64_of_one : answer 0x00000014 0 1 0 [] = some ⟨0, 0x283A72A5B9AB93D3, 0⟩ := by decide +kernel
theorem test_aval64_of_ones :
    answer 0x00000014 0 0xFFFFFFFFFFFFFFFF 0 [] = some ⟨0, 0x100AB62DAADD9289, 0⟩ := by decide +kernel
theorem test_aval3_of_ones :
    answer 0x00000015 0 0xFFFFFFFFFFFFFFFF 0 [] = some ⟨0, 0x730E44304B0E4430, 0⟩ := by decide +kernel
theorem test_aval3_of_K64_0 :
    answer 0x00000015 0 0xBE4BA423396CFEB8 0 [] = some ⟨0, 0x203675A3A5490572, 0⟩ := by decide +kernel
theorem test_rrmxmx_of_one : answer 0x00000016 0 1 8 [] = some ⟨0, 0x1C046A424EED09B1, 0⟩ := by decide +kernel
theorem test_rrmxmx_of_ones :
    answer 0x00000016 0 0xFFFFFFFFFFFFFFFF 0xFFFFFFFFFFFFFFFF [] = some ⟨0, 0xBA9E14E6D42A95BA, 0⟩ := by decide +kernel
theorem test_mul128fold64_of_ones :
    answer 0x00000017 0 0xFFFFFFFFFFFFFFFF 0xFFFFFFFFFFFFFFFF [] = some ⟨0, 0xFFFFFFFE00000002, 0⟩ := by decide +kernel
theorem test_fold_in_both_modes :
    foldSum 0x0123456789ABCDEF 0xFEDCBA9876543210 = 0x2358D29009439818 ∧
      foldXor 0x0123456789ABCDEF 0xFEDCBA9876543210 = 0x2317228F48165BB2 := by decide +kernel
theorem test_mix16b_k16 :
    answer 0x00040018 1 0x0706050403020100 0x0F0E0D0C0B0A0908 [] = some ⟨0, 0x471F2B97711C1904, 0⟩ := by
  decide +kernel
theorem test_mix16b_limit :
    answer 0x002C0018 0 0 0 [] = some ⟨0, 0xA5E6A0F171690D02, 0⟩ ∧ answer 0x002C4018 0 0 0 [] = some ⟨3, 0, 0⟩ := by
  decide +kernel
theorem test_secretRd32_odd_offset : answer 0x00004019 0 0 0 [] = some ⟨0, 0x0000000023396CFE, 0⟩ := by
  decide +kernel
theorem test_secretRd32_limit :
    answer 0x002F0019 0 0 0 [] = some ⟨0, 0x000000007E404BBB, 0⟩ ∧ answer 0x002F4019 0 0 0 [] = some ⟨3, 0, 0⟩ := by
  decide +kernel
theorem test_secretRd64_odd_offset : answer 0x0000401A 0 0 0 [] = some ⟨0, 0x7CBE4BA423396CFE, 0⟩ := by
  decide +kernel
theorem test_secretRd64_limit :
    answer 0x002E001A 0 0 0 [] = some ⟨0, 0x7E404BBBCAFBD7AF, 0⟩ ∧ answer 0x002E401A 0 0 0 [] = some ⟨3, 0, 0⟩ := by
  decide +kernel

/-! ### One-shot hashes: sections 1.1, 3.6 to 3.8 -/

/-- The source's known value, and SEED[63:32] ignored. -/
theorem test_hash32_of_nothing :
    answer 0x00000001 0 0 0 [] = some ⟨0, 0x02CC5D05, 0⟩ ∧
      answer 0x00000001 0xFFFFFFFF00000000 0 0 [] = some ⟨0, 0x02CC5D05, 0⟩ := by decide +kernel
/-- One block, three words and three bytes. -/
theorem test_hash32_of_31_zeros : answer 0x00000001 0 0 0 (zeros 31) = some ⟨0, 0x0DAFE948, 0⟩ := by decide +kernel
/-- The source's known value, and its boundary between the two heads. -/
theorem test_hash64_of_nothing_and_31_zeros :
    answer 0x00000002 0 0 0 [] = some ⟨0, 0xEF46DB3751D8E999, 0⟩ ∧
      answer 0x00000002 0 0 0 (zeros 31) = some ⟨0, 0xFAF43DD52DEB083A, 0⟩ := by decide +kernel
/-- Three blocks and one 4-byte word; a seed with two blocks. -/
theorem test_hash64_of_blocks :
    answer 0x00000002 0 0 0 (pat 100) = some ⟨0, 0x6AC1E58032166597, 0⟩ ∧
      answer 0x00000002 0x0123456789ABCDEF 0 0 (pat 64) = some ⟨0, 0xA0A4E3E697D61870, 0⟩ := by decide +kernel
/-- Each class up to 16 bytes, at the seed 0123456789ABCDEF. -/
theorem test_hash128_short_classes :
    answer 0x00000003 0x0123456789ABCDEF 0 0 [] = some ⟨0, 0xCC1CA35A1B089C5C, 0x3ED87DF1BDA6E8E1⟩ ∧
      answer 0x00000003 0x0123456789ABCDEF 0 0 (pat 3) = some ⟨0, 0x6DB0802353336496, 0x9961B44FFEF9F895⟩ ∧
      answer 0x00000003 0x0123456789ABCDEF 0 0 (pat 8) = some ⟨0, 0xD204FC26419C7D22, 0xD4EA63BAF4A1A4F9⟩ ∧
      answer 0x00000003 0x0123456789ABCDEF 0 0 (pat 9) = some ⟨0, 0x1D760A5875C66FEE, 0xB4BDB8D447F98EDE⟩ := by
  decide +kernel
/-- Each class from 17 bytes on, at the seed 0123456789ABCDEF. -/
theorem test_hash128_long_classes :
    answer 0x00000003 0x0123456789ABCDEF 0 0 (pat 97) = some ⟨0, 0x9B20324A89F6F0B9, 0x12E6A42E849B3957⟩ ∧
      answer 0x00000003 0x0123456789ABCDEF 0 0 (pat 143) = some ⟨0, 0x0AD21821839DA05D, 0xBD139D4286743784⟩ ∧
      answer 0x00000003 0x0123456789ABCDEF 0 0 (pat 241) = some ⟨0, 0xDBEE325FFFCD892E, 0x941C2A9ECA57FD93⟩ ∧
      answer 0x00000003 0x0123456789ABCDEF 0 0 (pat 256) = some ⟨0, 0x790DF1C0EA3D0014, 0x1DB861F38E01D43A⟩ := by
  decide +kernel

/-! ### The stream: section 3.9 and programs P1 and P2 -/

theorem test_h64Init_restarts :
    after ctxPat40 0x00000008 5 [] = some (⟨0, 0, 0⟩,
      { st := .active, v := ⟨0x60EA27EEADC0B5DB, 0xC2B2AE3D27D4EB54, 5, 0x61C8864E7A14357E⟩, mem := ctxPat40.mem,
        memsize := 0, totalLen := 0, large := false, seed := 5 }) := by decide +kernel
/-- P1 line 4: a byte appended to the pending ones. -/
theorem test_h64Update_appends :
    after ctxAb 0x00000009 0 [0x63] = some (⟨0, 0, 0⟩,
      { ctxAb with mem := [(0, 0x61), (1, 0x62), (2, 0x63)], memsize := 3, totalLen := 3 }) := by decide +kernel
/-- Outside ACTIVE it raises STATE and changes nothing. -/
theorem test_h64Update_in_done :
    after { ctxAb with st := .done } 0x00000009 0 [0x63] = some (⟨2, 0, 0⟩, { ctxAb with st := .done }) := by
  decide +kernel
/-- P2 line 6. -/
theorem test_h64Final_after_a_block :
    after ctxPat40 0x0000000A 0 [] = some (⟨0, 0xF5DA40F1B11741E9, 0⟩, { ctxPat40 with st := .done }) := by
  decide +kernel
theorem test_h64Final_in_idle : answer 0x0000000A 0 0 0 [] = some ⟨2, 0, 0⟩ := by decide +kernel

/-! ### Witnesses: the hypotheses of each obligation can be met -/

/-- A command presented to the machine in a stream. -/
def busy (word : U32) (data : List Byte) : State := inCtx ctxPat40 word 0 data

theorem witness_StepRunsTheDecodedCommand :
    (busy 0x002C4018 []).pending = ⟨0x002C4018, 0, 0, 0, []⟩ :: [] ∧ ([] : List Byte).length < 2 ^ 64 ∧
      decodeWord 0x002C4018 = .ok (.mix16b 177) := by decide

theorem witness_IllegalWordRaisesIllegal :
    (busy 0x00400009 [1]).pending = ⟨0x00400009, 0, 0, 0, [1]⟩ :: [] ∧ ([1] : List Byte).length < 2 ^ 64 ∧
      ¬ legalWord 0x00400009 ∧ ¬ legalWord 0x00000004 := by decide

/-- The three kinds of command: no field read, R read, K read. -/
theorem witness_LegalWordsAreExactly :
    decodeWord 0x00000001 = .ok .hash32 ∧ Instr.hash32.readsR = false ∧ Instr.hash32.readsK = false ∧
      (0x003FFF01 : U32).extractLsb' 0 8 = (0x00000001 : U32).extractLsb' 0 8 ∧
      (0x003FFF01 : U32).extractLsb' 22 10 = (0x00000001 : U32).extractLsb' 22 10 ∧
    decodeWord 0x00003F10 = .ok (.rotl32 63) ∧ (0x003FFF10 : U32).extractLsb' 8 6 = (0x00003F10 : U32).extractLsb' 8 6 ∧
      (0x003FFF10 : U32).extractLsb' 0 8 = (0x00003F10 : U32).extractLsb' 0 8 ∧
      (0x003FFF10 : U32).extractLsb' 22 10 = (0x00003F10 : U32).extractLsb' 22 10 ∧
    decodeWord 0x003FC018 = .ok (.mix16b 255) ∧ (0x003FFF18 : U32).extractLsb' 14 8 = (0x003FC018 : U32).extractLsb' 14 8 ∧
      (0x003FFF18 : U32).extractLsb' 0 8 = (0x003FC018 : U32).extractLsb' 0 8 ∧
      (0x003FFF18 : U32).extractLsb' 22 10 = (0x003FC018 : U32).extractLsb' 22 10 := by decide

theorem witness_DecodeOfEncode :
    (Instr.rotl32 0).wellFormed = true ∧ (Instr.rotl64 63).wellFormed = true ∧ (Instr.mix16b 255).wellFormed = true ∧
      Instr.hash128.wellFormed = true := by decide

theorem witness_EncodeOfDecode :
    decodeWord 0x003FFF11 = .ok (.rotl64 63) ∧ decodeWord 0x003FFF1A = .ok (.secretRd64 255) := by decide

/-- A reset in the middle of a stream, beside the first reset. -/
theorem witness_ResetAbandonsTheStream :
    ({ State.reset with pending := (busy 9 [1]).pending } : State).pending = (busy 9 [1]).pending ∧
      ({ State.reset with pending := (busy 9 [1]).pending } : State).responses = (busy 9 [1]).responses ∧
      ({ State.reset with pending := (busy 9 [1]).pending } : State).ctx = State.reset.ctx ∧
      (busy 9 [1]).ctx.st = .active := by decide

/-- Words of one opcode with and without a reserved bit (the clauses of `encodedBy`). -/
theorem witness_encodedBy :
    (0x003FFF18 : U32).extractLsb' 0 8 = 0x18 ∧ (0x003FFF18 : U32).extractLsb' 22 10 = 0 ∧
      (0x00400018 : U32).extractLsb' 0 8 = 0x18 ∧ (0x00400018 : U32).extractLsb' 22 10 ≠ 0 := by decide

theorem witness_StepKeepsTheInvariant :
    (busy 0x00000009 (pat 31)).Inv ∧ ∃ t, step (busy 0x00000009 (pat 31)) = .next t :=
  ⟨by decide, next_of_isNext (by decide +kernel)⟩

/-- No command, a command that can be issued, and one that cannot. -/
theorem witness_EveryCommandIsAnswered :
    State.reset.Inv ∧ State.reset.pending = [] ∧ (busy 0x0000000A []).Inv ∧
      (busy 0x0000000A []).pending = ⟨0x0000000A, 0, 0, 0, []⟩ :: [] ∧ ([] : List Byte).length < 2 ^ 64 := by decide

theorem witness_EveryCommandIsAnswered_too_long :
    (busy 0x00000001 (List.replicate (2 ^ 64) 0)).Inv ∧ 2 ^ 64 ≤ (List.replicate (2 ^ 64) (0 : Byte)).length ∧
      (busy 0x00000001 (List.replicate (2 ^ 64) 0)).pending =
        ⟨0x00000001, 0, 0, 0, List.replicate (2 ^ 64) 0⟩ :: [] := by
  refine ⟨?_, ?_, rfl⟩
  · generalize List.replicate (2 ^ 64) (0 : Byte) = d
    exact (by decide : (busy 0x00000001 []).Inv)
  · rw [List.length_replicate]

/-- Every STATUS occurs, in a state that meets the invariant. -/
theorem witness_StatusOfEveryCommand :
    (busy 0x00000009 []).Inv ∧ (presents ⟨0x00000009, 0, 0, 0, []⟩).Inv ∧
      statusOf .active 0x00000009 = 0 ∧ statusOf .idle 0x00000004 = 1 ∧ statusOf .idle 0x00000009 = 2 ∧
      statusOf .done 0x0000000A = 2 ∧ statusOf .active 0x002C4018 = 3 ∧ statusOf .active 0x002C0018 = 0 ∧
      statusOf .idle 0x002F4019 = 3 ∧ statusOf .idle 0x002E401A = 3 := by decide

theorem witness_ErrorHasNoEffect :
    (presents ⟨0x00000009, 0, 0, 0, [1]⟩).pending = ⟨0x00000009, 0, 0, 0, [1]⟩ :: [] ∧
      step (presents ⟨0x00000009, 0, 0, 0, [1]⟩) =
        .next { State.reset with cmd := ⟨0x00000009, 0, 0, 0, [1]⟩, responses := [⟨2, 0, 0⟩] } ∧
      (⟨2, 0, 0⟩ : Response).status ≠ 0 := ⟨rfl, rfl, by decide⟩

/-- A transition of each streaming command, and a command of each kind that makes none. -/
theorem witness_StreamTransitions :
    (∃ t, step (busy 0x00000008 []) = .next t) ∧ (∃ t, step (busy 0x00000009 [1]) = .next t) ∧
      (∃ t, step (busy 0x0000000A []) = .next t) ∧ ctxPat40.st = .active ∧
      (∃ t, step (presents ⟨0x0000000A, 0, 0, 0, []⟩) = .next t) ∧ State.reset.ctx.st ≠ .active ∧
      (∃ t, step (busy 0x00000013 []) = .next t) ∧ decodeWord 0x00000013 = .ok .bswap64 :=
  ⟨next_of_isNext (by decide +kernel), next_of_isNext (by decide +kernel), next_of_isNext (by decide +kernel), rfl,
    next_of_isNext (by decide +kernel), by decide, next_of_isNext (by decide +kernel), by decide⟩

theorem witness_ResponseShape :
    exec (.rotl32 1) { State.reset with cmd := ⟨0, 0, 3, 0, []⟩ } =
        .next { State.reset with cmd := ⟨0, 0, 3, 0, []⟩, responses := [⟨0, 6, 0⟩] } ∧
      exec .h64Update State.reset = .next { State.reset with responses := [⟨2, 0, 0⟩] } ∧
      ∃ t, exec .hash128 State.reset = .next t := ⟨rfl, rfl, next_of_isNext (by decide +kernel)⟩

theorem witness_OneShotFrame :
    Instr.hash64.streaming = false ∧ (∃ t, exec .hash64 (busy 0 []) = .next t) ∧
      (Instr.mix16b 177).streaming = false ∧ ∃ t, exec (.mix16b 177) (busy 0 []) = .next t :=
  ⟨rfl, next_of_isNext (by decide +kernel), rfl, next_of_isNext (by decide +kernel)⟩

/-- Each streaming command in ACTIVE, and one outside it. -/
theorem witness_StreamFrame :
    Instr.h64Update.streaming = true ∧ (∃ t, exec .h64Init (busy 0 []) = .next t) ∧
      (∃ t, exec .h64Update (busy 0 []) = .next t) ∧ (∃ t, exec .h64Final (busy 0 []) = .next t) ∧
      ∃ t, exec .h64Update State.reset = .next t :=
  ⟨rfl, next_of_isNext (by decide +kernel), next_of_isNext (by decide +kernel), next_of_isNext (by decide +kernel),
    next_of_isNext (by decide +kernel)⟩

/-- A one-shot command over two contexts and two commands, and a streaming command over one context. -/
theorem witness_CommandsReadOnlyTheirOperands :
    agreeOn (.rotl32 5) ⟨0, 7, 0x1_00000003, 8, [1]⟩ ⟨1, 0, 0x2_00000003, 0, []⟩ ∧ (Instr.rotl32 5).streaming = false ∧
      (∃ t, exec (.rotl32 5) { busy 0 [] with cmd := ⟨0, 7, 0x1_00000003, 8, [1]⟩ } = .next t) ∧
      agreeOn .h64Update ⟨0, 7, 1, 8, [1]⟩ ⟨1, 0, 0, 0, [1]⟩ ∧
      ∃ t, exec .h64Update { busy 0 [] with cmd := ⟨0, 7, 1, 8, [1]⟩ } = .next t :=
  ⟨show (0x1_00000003 : U64).extractLsb' 0 32 = (0x2_00000003 : U64).extractLsb' 0 32 by decide, rfl,
    next_of_isNext (by decide +kernel), rfl, next_of_isNext (by decide +kernel)⟩

/-- Two states whose hosts see the same and whose unspecified fields differ, outside and inside a stream. -/
theorem witness_UnspecifiedFieldsNeverMatter :
    State.Same State.reset { State.reset with ctx := { ctxPat40 with st := .idle } } ∧
      State.Same (busy 0x0000000A []) (inCtx { ctxPat40 with mem := ctxPat40.mem ++ [(9, 1)] } 0x0000000A 0 []) := by
  decide

theorem witness_MixedWidthReadsAgree : 0 + 8 ≤ (pat 8).length ∧ 1 + 8 ≤ (pat 9).length ∧ 7 < (pat 8).length := by
  decide

theorem witness_ReadsAreLittleEndianAndBounded : 3 + 5 ≤ (pat 8).length ∧ (pat 8).length < 4 + 5 := by decide

theorem witness_BufferStoreAndReadBack :
    ctxPat40.mem.wf = true ∧ 30 + (pat 2).length ≤ 32 ∧ 32 < 30 + (pat 3).length := by decide

theorem witness_FoldLaws : (4294967296#64).toNat * (4294967295#64).toNat < 2 ^ 64 := by decide

theorem witness_Mix16bCommand : 176 ≤ 176 ∧ 176 < 177 := by decide

theorem witness_SecretReadCommands : 188 ≤ 188 ∧ 188 < 189 ∧ 184 ≤ 184 ∧ 184 < 185 := by decide

/-- Two blocks whose first words agree and whose others differ. -/
theorem witness_LanesAreIndependent :
    16 * 1 ≤ (pat 16).length ∧ 16 * 1 ≤ (pat 4 ++ zeros 12).length ∧
      (∀ i < 1, Spec.word32At (pat 16) (16 * i) = Spec.word32At (pat 4 ++ zeros 12) (16 * i)) ∧
      ¬ ∀ i < 1, Spec.word32At (pat 16) (16 * i + 4) = Spec.word32At (pat 4 ++ zeros 12) (16 * i + 4) := by decide

/-- A state that has captured `n` bytes of DATA. -/
def holding (n : Nat) : State := { State.reset with cmd := ⟨0x00000003, 0, 0, 0, zeros n⟩ }

theorem length_holding (n : Nat) : (holding n).cmd.data.length = n := List.length_replicate

theorem witness_Hash128OfNothing : (holding 0).cmd.data = [] := rfl

theorem witness_Hash128_short_classes :
    (1 ≤ (holding 1).cmd.data.length ∧ (holding 1).cmd.data.length ≤ 3) ∧
      (1 ≤ (holding 3).cmd.data.length ∧ (holding 3).cmd.data.length ≤ 3) ∧
      (4 ≤ (holding 4).cmd.data.length ∧ (holding 4).cmd.data.length ≤ 8) ∧
      (4 ≤ (holding 8).cmd.data.length ∧ (holding 8).cmd.data.length ≤ 8) ∧
      (9 ≤ (holding 9).cmd.data.length ∧ (holding 9).cmd.data.length ≤ 16) ∧
      (9 ≤ (holding 16).cmd.data.length ∧ (holding 16).cmd.data.length ≤ 16) := by
  simp only [length_holding]; decide

theorem witness_Hash128_long_classes :
    (17 ≤ (holding 17).cmd.data.length ∧ (holding 17).cmd.data.length ≤ 128) ∧
      (17 ≤ (holding 128).cmd.data.length ∧ (holding 128).cmd.data.length ≤ 128) ∧
      (129 ≤ (holding 129).cmd.data.length ∧ (holding 129).cmd.data.length ≤ 240) ∧
      (129 ≤ (holding 240).cmd.data.length ∧ (holding 240).cmd.data.length ≤ 240) ∧
      241 ≤ (holding 241).cmd.data.length := by
  simp only [length_holding]; decide

/-- The decided table, and one that differs from it at index 135. -/
theorem witness_Hash128ReadsNoSecretAbove134 :
    Config.params.secret.length = 192 ∧ (Config.secretTable.take 135 ++ zeros 57).length = 192 ∧
      Config.params.secret.take 135 = (Config.secretTable.take 135 ++ zeros 57).take 135 ∧
      Config.params.secret ≠ Config.secretTable.take 135 ++ zeros 57 := by decide +kernel

theorem witness_FoldModeMattersOnlyBetween9And240 :
    ((zeros 8).length ≤ 8 ∨ 241 ≤ (zeros 8).length) ∧ ((zeros 241).length ≤ 8 ∨ 241 ≤ (zeros 241).length) := by
  simp only [zeros, List.length_replicate]; decide

/-- Outside and inside a stream, with pending bytes. -/
theorem witness_H64UpdateFoldsAndKeeps :
    State.reset.ctx.Inv ∧ State.reset.ctx.st ≠ .active ∧ (busy 0 (pat 31)).ctx.Inv ∧ (busy 0 (pat 31)).ctx.st = .active := by
  decide

theorem witness_EmptyUpdateChangesNothing :
    ctxAb.Inv ∧ (busy 0 []).ctx.Inv ∧ (busy 0 []).ctx.st = .active ∧ (busy 0 []).cmd.data = [] := by decide

/-- Short and long streams, and one that has ended. -/
theorem witness_H64FinalReturnsTheHash :
    (inCtx ctxAb 0 0 []).ctx.Inv ∧ ctxAb.large = false ∧ (busy 0 []).ctx.Inv ∧ ctxPat40.large = true ∧
      (busy 0 []).ctx.st = .active ∧ ({ ctxPat40 with st := StreamState.done } : Ctx).Inv := by decide

/-- The chunks of program P2, in a state that is in another stream. -/
theorem witness_StreamContextAfterChunks :
    [pat 7, [], pat 25, pat 8].flatten.length < 2 ^ 64 ∧
      ({ busy 0 [] with pending := streamOf 0 [pat 7, [], pat 25, pat 8] ++ [] } : State).pending =
        streamOf 0 [pat 7, [], pat 25, pat 8] ++ [] := ⟨by decide, rfl⟩

/-- A stream, its end, and the same bytes in one command. -/
def program (chunks : List (List Byte)) : List Command :=
  streamOf 0 chunks ++ commandOf .h64Final 0 0 0 [] :: commandOf .hash64 0 0 0 chunks.flatten :: []

theorem witness_ChunkInvariance :
    ([] : List (List Byte)).flatten.length < 2 ^ 64 ∧ [pat 7, [], pat 25, pat 8].flatten.length < 2 ^ 64 ∧
      ({ busy 0 [] with pending := program [pat 7, [], pat 25, pat 8] } : State).pending =
        streamOf 0 [pat 7, [], pat 25, pat 8] ++
          commandOf .h64Final 0 0 0 [] :: commandOf .hash64 0 0 0 [pat 7, [], pat 25, pat 8].flatten :: [] :=
  ⟨by decide, by decide, rfl⟩

end Sys2Proof.Tests
end

section
/-! SUPPORT. The statements of the family 10_state: reset, the invariant of the machine, the frame of the one-shot
commands, and the fields of `ctx` that no command sees (spec/10_state.md R22 to R34). -/

namespace Sys2Proof.StateFamily

open Machine Laws

/-! ### What a command leaves of the state -/

theorem err_wf (e : Err) : (Response.err e).wf := by cases e <;> decide

/-- Every command that ends in a next state sets `ctx`, adds one well-formed response and does nothing else. -/
theorem effect_setCtx_respond {i : Instr} {s t : State} (h : Effect i s t) :
    ∃ r : Response, r.wf ∧ t = (s.setCtx t.ctx).respond r := by
  cases h with
  | respond r hr =>
    refine ⟨r, ?_, rfl⟩
    rcases hr with h0 | rfl | rfl
    · simp [Response.wf, h0]
    · exact err_wf _
    · exact err_wf _
  | init => exact ⟨⟨0, 0, 0⟩, by simp [Response.wf], rfl⟩
  | update => exact ⟨⟨0, 0, 0⟩, by simp [Response.wf], rfl⟩
  | final => exact ⟨⟨0, _, 0⟩, by simp [Response.wf], rfl⟩

/-- A one-shot command leaves `ctx` as it was (R33). -/
theorem effect_ctx_of_not_streaming {i : Instr} {s t : State} (h : Effect i s t) (hi : i.streaming = false) :
    t.ctx = s.ctx := by
  cases h with
  | respond => rfl
  | init => cases hi
  | update => cases hi
  | final => cases hi

/-! ### The invariant -/

theorem start_inv {c : Ctx} (h : c.Inv) (seed : U64) : (c.start Config.params seed).Inv :=
  ⟨h.1, fun _ => ⟨by simp, by simp, by simp⟩⟩

theorem finish_inv {c : Ctx} (h : c.Inv) : c.finish.Inv := ⟨h.1, by simp⟩

/-- Taking a chunk keeps the canonical form of BUF. -/
theorem absorbed_mem_wf {c : Ctx} (h : c.mem.wf = true) (pend chunk : List Byte) :
    (absorbed c pend chunk).mem.wf = true :=
  putAll_wf h (by rw [length_drop_blocks, Config.bufSize]; omega)

/-- After a chunk every byte below MEMSIZE has been written (R152). -/
theorem absorbed_written (c : Ctx) (pend chunk : List Byte) :
    ∀ k < (absorbed c pend chunk).memsize.val, ((absorbed c pend chunk).mem.get k).isSome = true := by
  intro k hk
  rw [absorbed_memsize] at hk
  rw [absorbed_get hk, List.getElem?_eq_getElem (by omega), Option.isSome_some]

theorem absorbed_totalLen_toNat (c : Ctx) (pend chunk : List Byte) :
    (absorbed c pend chunk).totalLen.toNat = (c.totalLen.toNat + chunk.length) % 2 ^ 64 := by
  simp [absorbed, trunc64, BitVec.toNat_add]

/-- H64_UPDATE keeps the invariant of the context. MEMSIZE follows TOTAL_LEN across the wrap because 32 divides 2^64;
if LARGE stays unset, the pending bytes and the chunk are fewer than 32, and the count of them has not wrapped. -/
theorem absorbed_inv {c : Ctx} (h : c.Inv) (ha : c.st = .active) {pend : List Byte}
    (hp : bufTake c.mem 0 c.memsize = .ok pend) (chunk : List Byte) : (absorbed c pend chunk).Inv := by
  obtain ⟨hwf, hact⟩ := h
  obtain ⟨-, hsize, hlarge⟩ := hact ha
  have hlen : (pend ++ chunk).length = c.totalLen.toNat % 32 + chunk.length := by
    rw [List.length_append, (get_of_bufTake hp).1, hsize]
  refine ⟨absorbed_mem_wf hwf pend chunk, fun _ => ⟨absorbed_written c pend chunk, ?_, ?_⟩⟩
  · rw [absorbed_memsize, absorbed_totalLen_toNat, hlen]
    omega
  · rw [absorbed_totalLen_toNat]
    intro hbig
    change (c.large || decide (32 ≤ (pend ++ chunk).length)) = true
    by_cases hl : 32 ≤ c.totalLen.toNat
    · rw [hlarge hl, Bool.true_or]
    · rw [Bool.or_eq_true, decide_eq_true_iff, hlen]
      right; omega

/-- Every command keeps the invariant of the context. -/
theorem effect_ctx_inv {i : Instr} {s t : State} (h : Effect i s t) (hs : s.ctx.Inv) : t.ctx.Inv := by
  cases h with
  | respond => exact hs
  | init => exact start_inv hs _
  | update ha hc =>
    obtain ⟨pend, hp, rfl⟩ := update_eq_ok hc
    exact absorbed_inv hs ha hp _
  | final => exact finish_inv hs

/-- A well-formed response and a context that meets the invariant, put into a state that meets it. -/
theorem setCtx_respond_inv {s : State} {c : Ctx} {r : Response} (hs : s.Inv) (hc : c.Inv) (hr : r.wf) :
    ((s.setCtx c).respond r).Inv := by
  refine ⟨hc, fun q hq => ?_⟩
  rw [respond_responses, setCtx_responses, List.mem_append, List.mem_singleton] at hq
  rcases hq with hq | rfl
  · exact hs.2 q hq
  · exact hr

/-- Settles O10: a step holds, answers ILLEGAL, or has the effect of the command it ran, and each keeps the invariant. -/
theorem stepKeepsTheInvariant : Obligations.StepKeepsTheInvariant := by
  intro s t hs hstep
  obtain ⟨-, rfl⟩ | ⟨c, rest, -, -, ⟨i, -, hex⟩ | ⟨e, -, rfl⟩⟩ := step_eq_next hstep
  · exact hs
  · have heff := exec_effect hex
    obtain ⟨r, hr, ht⟩ := effect_setCtx_respond heff
    rw [ht]
    exact setCtx_respond_inv (s := s.capture c rest) hs (effect_ctx_inv heff hs.1) hr
  · exact setCtx_respond_inv (s := s.capture c rest) hs hs.1 (err_wf .illegal)

/-! ### The fields that no command sees -/

/-- Two outcomes a host cannot tell apart: the same fault or refusal, or next states whose hosts see the same. -/
inductive Alike : Host.Outcome State Fault Refusal → Host.Outcome State Fault Refusal → Prop
  | next {s t : State} (h : s.Same t) : Alike (.next s) (.next t)
  | fault (f : Fault) : Alike (.fault f) (.fault f)
  | refused (f : Refusal) : Alike (.refused f) (.refused f)

theorem alike_next_iff {s : State} {o : Host.Outcome State Fault Refusal} :
    Alike (.next s) o ↔ ∃ t, o = .next t ∧ s.Same t :=
  ⟨fun | .next h => ⟨_, rfl, h⟩, fun ⟨_, ho, h⟩ => ho ▸ .next h⟩

theorem alike_fault_iff {f : Fault} {o : Host.Outcome State Fault Refusal} : Alike (.fault f) o ↔ o = .fault f :=
  ⟨fun | .fault _ => rfl, fun ho => ho ▸ .fault f⟩

theorem alike_refused_iff {f : Refusal} {o : Host.Outcome State Fault Refusal} :
    Alike (.refused f) o ↔ o = .refused f :=
  ⟨fun | .refused _ => rfl, fun ho => ho ▸ .refused f⟩

theorem capture_same {s t : State} (h : s.Same t) (c : Command) (rest : List Command) :
    (s.capture c rest).Same (t.capture c rest) := ⟨rfl, h.2⟩

theorem setCtx_respond_same {s t : State} (h : s.Same t) {c d : Ctx} (hc : c.Same d) (r : Response) :
    ((s.setCtx c).respond r).Same ((t.setCtx d).respond r) := by
  obtain ⟨hpend, hresp, -⟩ := h
  exact ⟨hpend, by rw [respond_responses, respond_responses, setCtx_responses, setCtx_responses, hresp], hc⟩

theorem respond_alike {s t : State} (h : s.Same t) (r : Response) :
    Alike (.next (s.respond r)) (.next (t.respond r)) := .next (setCtx_respond_same h h.2.2 r)

theorem complete_alike {s t : State} (h : s.Same t) (x : Except Fault (U64 × U64)) :
    Alike (s.complete x) (t.complete x) := by
  cases x with
  | ok r => exact respond_alike h _
  | error f => exact .fault f

/-- A command with one result word that first checks its secret offset (R203). -/
theorem ite_raise_complete64_alike {s t : State} (h : s.Same t) (p : Prop) [Decidable p] (e : Err)
    (x : Except Fault U64) :
    Alike (if p then s.raise e else s.complete64 x) (if p then t.raise e else t.complete64 x) := by
  split
  · exact respond_alike h _
  · exact complete_alike h _

theorem start_same (c d : Ctx) (seed : U64) : (c.start Config.params seed).Same (d.start Config.params seed) :=
  ⟨rfl, fun _ => ⟨rfl, rfl, rfl, rfl, rfl, by simp⟩⟩

theorem finish_same (c d : Ctx) : c.finish.Same d.finish := ⟨rfl, by simp⟩

/-- In ACTIVE the pending bytes are all that is read of MEM, and they agree. -/
theorem bufTake_same {c d : Ctx} (h : c.Same d) (ha : c.st = .active) :
    bufTake c.mem 0 c.memsize = bufTake d.mem 0 d.memsize := by
  obtain ⟨-, hm, -, -, -, hget⟩ := h.2 ha
  rw [← hm]
  exact bufTake_congr (by simpa using hget)

/-- Taking a chunk leaves alike what was alike: the new pending bytes come from the old ones and the chunk (R152). -/
theorem absorbed_same {c d : Ctx} (h : c.Same d) (ha : c.st = .active) (pend chunk : List Byte) :
    (absorbed c pend chunk).Same (absorbed d pend chunk) := by
  obtain ⟨hst, hact⟩ := h
  obtain ⟨hv, -, htot, hlarge, hseed, -⟩ := hact ha
  refine ⟨hst, fun _ => ⟨?_, rfl, ?_, ?_, hseed, fun k hk => ?_⟩⟩
  · simp only [absorbed, hv]
  · simp only [absorbed, htot]
  · simp only [absorbed, hlarge]
  · rw [absorbed_memsize] at hk
    rw [absorbed_get hk, absorbed_get hk]

theorem h64Update_fault {s : State} {f : Fault} (ha : s.ctx.st = .active)
    (h : bufTake s.ctx.mem 0 s.ctx.memsize = .error f) : exec .h64Update s = .fault f := by
  change execH64Update s = _
  rw [execH64Update, if_pos ha, Ctx.update, Ctx.joined, h, error_bind, error_bind]

theorem h64Final_fault {s : State} {f : Fault} (ha : s.ctx.st = .active)
    (h : bufTake s.ctx.mem 0 s.ctx.memsize = .error f) : exec .h64Final s = .fault f := by
  change execH64Final s = _
  rw [execH64Final, if_pos ha, Ctx.result, h]
  rfl

theorem h64Update_alike {s t : State} (h : s.Same t) (hc : s.cmd = t.cmd) :
    Alike (exec .h64Update s) (exec .h64Update t) := by
  have hctx := h.2.2
  by_cases ha : s.ctx.st = .active
  · have hb : t.ctx.st = .active := hctx.1 ▸ ha
    have htake := bufTake_same hctx ha
    cases hp : bufTake s.ctx.mem 0 s.ctx.memsize with
    | ok pend =>
      rw [h64Update_active ha hp, h64Update_active hb (htake ▸ hp), hc]
      exact .next (setCtx_respond_same h (absorbed_same hctx ha pend _) _)
    | error f =>
      rw [h64Update_fault ha hp, h64Update_fault hb (htake ▸ hp)]
      exact .fault f
  · rw [h64Update_inactive ha, h64Update_inactive (hctx.1 ▸ ha)]
    exact respond_alike h _

theorem h64Final_alike {s t : State} (h : s.Same t) : Alike (exec .h64Final s) (exec .h64Final t) := by
  have hctx := h.2.2
  by_cases ha : s.ctx.st = .active
  · have hb : t.ctx.st = .active := hctx.1 ▸ ha
    have htake := bufTake_same hctx ha
    cases hp : bufTake s.ctx.mem 0 s.ctx.memsize with
    | ok pend =>
      obtain ⟨hv, -, htot, hlarge, hseed, -⟩ := hctx.2 ha
      rw [h64Final_active ha hp, h64Final_active hb (htake ▸ hp), hv, htot, hlarge, hseed]
      exact .next (setCtx_respond_same h (finish_same _ _) _)
    | error f =>
      rw [h64Final_fault ha hp, h64Final_fault hb (htake ▸ hp)]
      exact .fault f
  · rw [h64Final_inactive ha, h64Final_inactive (hctx.1 ▸ ha)]
    exact respond_alike h _

/-- A captured command ends alike in two states whose hosts see the same: a one-shot command reads its operands alone
(R33), a streaming command what is alike of `ctx`. -/
theorem exec_capture_alike {s t : State} (h : s.Same t) (i : Instr) (c : Command) (rest : List Command) :
    Alike (exec i (s.capture c rest)) (exec i (t.capture c rest)) := by
  have h' := capture_same h c rest
  cases i with
  | hash32 => exact complete_alike h' _
  | hash64 => exact complete_alike h' _
  | hash128 => exact complete_alike h' _
  | h64Init => exact .next (setCtx_respond_same h' (start_same _ _ c.seed) _)
  | h64Update => exact h64Update_alike h' rfl
  | h64Final => exact h64Final_alike h'
  | rotl32 r => exact respond_alike h' _
  | rotl64 r => exact respond_alike h' _
  | bswap32 => exact respond_alike h' _
  | bswap64 => exact respond_alike h' _
  | aval64 => exact respond_alike h' _
  | aval3 => exact respond_alike h' _
  | rrmxmx => exact respond_alike h' _
  | mul128fold64 => exact respond_alike h' _
  | mix16b k => exact ite_raise_complete64_alike h' _ _ _
  | secretRd32 k => exact ite_raise_complete64_alike h' _ _ _
  | secretRd64 k => exact ite_raise_complete64_alike h' _ _ _

theorem runCaptured_capture_alike {s t : State} (h : s.Same t) (c : Command) (rest : List Command) :
    Alike (runCaptured (s.capture c rest)) (runCaptured (t.capture c rest)) := by
  rw [runCaptured, runCaptured, capture_cmd, capture_cmd]
  cases decodeWord c.word with
  | ok i => exact exec_capture_alike h i c rest
  | error e => exact respond_alike (capture_same h c rest) _

theorem step_alike {s t : State} (h : s.Same t) : Alike (step s) (step t) := by
  have hpend := h.1
  cases hp : s.pending with
  | nil =>
    rw [step_idle hp, step_idle (hpend ▸ hp)]
    exact .next h
  | cons c rest =>
    by_cases hl : c.data.length < 2 ^ 64
    · rw [step_captured hp hl, step_captured (hpend ▸ hp) hl]
      exact runCaptured_capture_alike h c rest
    · rw [step_tooLong hp hl, step_tooLong (hpend ▸ hp) hl]
      exact .refused _

/-- Settles O19: the two steps are alike, by the cases of what a step can do. -/
theorem unspecifiedFieldsNeverMatter : Obligations.UnspecifiedFieldsNeverMatter := by
  intro s t h
  have hstep := step_alike h
  exact ⟨fun s' hs => alike_next_iff.mp (hs ▸ hstep), fun f hs => alike_fault_iff.mp (hs ▸ hstep),
    fun f hs => alike_refused_iff.mp (hs ▸ hstep)⟩

/-! ### The one-shot commands -/

/-- Settles O16: a command that answers a next state sets `ctx` and responds, and a one-shot command sets `ctx` to what it
was. -/
theorem oneShotFrame : Obligations.OneShotFrame := by
  intro i s t hi hex
  have heff := exec_effect hex
  have hctx := effect_ctx_of_not_streaming heff hi
  obtain ⟨r, -, ht⟩ := effect_setCtx_respond heff
  refine ⟨hctx, fun off => by rw [hctx], ?_, ?_, r, ?_⟩ <;> rw [ht] <;> rfl

/-! ### Reset -/

/-- Settles O7: outside ACTIVE the two streaming commands raise STATE. -/
theorem resetLeavesTheStreamIdle : Obligations.ResetLeavesTheStreamIdle := by
  have hidle : State.reset.ctx.st ≠ .active := by decide
  exact ⟨rfl, rfl, rfl, h64Update_inactive hidle, h64Final_inactive hidle⟩

/-- Settles O9: BUF is empty, STATE is not ACTIVE, and there is no response. -/
theorem invariantAtReset : Obligations.InvariantAtReset :=
  ⟨⟨rfl, fun h => nomatch h⟩, fun _ h => nomatch h⟩

end Sys2Proof.StateFamily
end

section
/-! SUPPORT. The statements of the family 20_memory: reads of a byte space at every width and offset, and the store into
BUF (spec/20_memory.md R40 to R47). -/

namespace Sys2Proof.MemoryFamily

open Machine Laws Spec

/-! ### Reads of a byte space -/

/-- The value of `w` bytes given by their place is their little-endian sum (R41). -/
theorem leNat_map_range (f : Nat → Byte) (w : Nat) :
    leNat ((List.range w).map f) = ((List.range w).map fun k => (f k).toNat * 2 ^ (8 * k)).sum := by
  induction w generalizing f with
  | zero => rfl
  | succ w ih =>
    have hstep : ∀ k, (f (k + 1)).toNat * 2 ^ (8 * (k + 1)) = 256 * ((f (k + 1)).toNat * 2 ^ (8 * k)) := fun k => by
      rw [Nat.mul_succ, pow_add]; ring
    rw [List.range_succ_eq_map, List.map_cons, List.map_map, List.map_cons, List.map_map, leNat, ih, List.sum_cons]
    simp only [Function.comp_def, Nat.succ_eq_add_one, hstep, List.sum_map_mul_left, Nat.mul_zero, pow_zero, Nat.mul_one]

/-- A read in bounds answers the little-endian sum of its bytes, whatever the offset (R41, R45). -/
theorem memRead_ok {sp : Space} {B : List Byte} {off w : Nat} (h : off + w ≤ B.length) :
    memRead sp B off w = .ok ((List.range w).map fun k => (byteAt B (off + k)).toNat * 2 ^ (8 * k)).sum := by
  rw [memRead, readBytes_ok h, ok_bind, pure_ok, take_drop_eq _ _ _ h, leNat_map_range]

/-- A read out of bounds answers no value (R46). -/
theorem memRead_error {sp : Space} {B : List Byte} {off w : Nat} (h : B.length < off + w) :
    memRead sp B off w = .error (.readOutOfBounds sp off w) := by
  rw [memRead, readBytes_error h, error_bind]

/-- Settles O21: one clause for reads in bounds, one for reads out of bounds. -/
theorem readsAreLittleEndianAndBounded : Obligations.ReadsAreLittleEndianAndBounded :=
  fun _ _ _ _ => ⟨memRead_ok, memRead_error⟩

/-! ### Reads of mixed width -/

/-- The low half of an 8-byte word is the 4-byte word at its offset (R43). -/
theorem word64At_low (B : List Byte) (i : Nat) : (word64At B i).extractLsb' 0 32 = word32At B i :=
  extract_append_low _ _

/-- The high half of an 8-byte word is the 4-byte word four bytes on (R43). -/
theorem word64At_high (B : List Byte) (i : Nat) : (word64At B i).extractLsb' 32 32 = word32At B (i + 4) :=
  (extract_append_high _ _ 0 32).trans BitVec.extractLsb'_eq_self

theorem byteAt_eq_getElem {B : List Byte} {i : Nat} (h : i < B.length) : byteAt B i = B[i] :=
  List.getD_eq_getElem _ _ h

/-- Settles O20: the 8-byte word is the two 4-byte words side by side. -/
theorem mixedWidthReadsAgree : Obligations.MixedWidthReadsAgree := by
  refine fun sp B i => ⟨fun h => ⟨word64At B i, le64_ok h, ?_, ?_⟩, fun h => ?_⟩
  · rw [word64At_low, le32_ok (by omega)]
  · rw [word64At_high, le32_ok (by omega)]
  · rw [read8_ok h, byteAt_eq_getElem h]

/-! ### The store into BUF -/

/-- A store leaves every byte outside its range alone. -/
theorem get_putAll_outside (m : Memory) {off k : Nat} {bs : List Byte} (h : k < off ∨ off + bs.length ≤ k) :
    (m.putAll off bs).get k = m.get k := by
  rw [get_putAll, if_neg (by omega)]

/-- A store past the end of BUF faults (notes/assumptions/7.md). -/
theorem bufStore_error {m : Memory} {off : Nat} {bs : List Byte} (h : Config.bufSize < off + bs.length) :
    bufStore m off bs = .error (.writeOutOfBounds off bs.length) := by
  rw [bufStore, if_neg (by omega)]

/-- Settles O22: inside BUF the store is `Memory.putAll`, past its end a fault. -/
theorem bufferStoreAndReadBack : Obligations.BufferStoreAndReadBack :=
  fun m off bs hwf =>
    ⟨fun h => ⟨m.putAll off bs, bufStore_ok h, putAll_wf hwf h, bufTake_putAll h, fun _ => get_putAll_outside m⟩,
      bufStore_error⟩

end Sys2Proof.MemoryFamily
end

section
/-! SUPPORT. The three one-shot hashes of the machine never leave a byte space, and answer the functions of `Spec`
(spec/41_xxhash32_engine.md R125, spec/42_xxhash64_engine.md R145, spec/43_xxhash3_128_dispatcher.md R170 to R179). -/

namespace Sys2Proof.OneShot

open Machine Laws

/-! ### HASH32 and HASH64 -/

theorem head32_ok (B : List Byte) (s : U32) : head32 B s = .ok
    (if B.length < 16 then s + 374761393
    else
      (Spec.lane32 B (s + 2654435761 + 2246822519) 0).rotateLeft 1 +
        (Spec.lane32 B (s + 2246822519) 4).rotateLeft 7 + (Spec.lane32 B s 8).rotateLeft 12 +
        (Spec.lane32 B (s - 2654435761) 12).rotateLeft 18) := by
  rw [head32]
  by_cases h : B.length < 16
  · rw [if_neg (by omega), if_pos h, p32_5_eq]
  · rw [if_pos (by omega), if_neg h, Config.block32, foldBlocks32_ok (by omega), ok_bind, pure_ok, converge32_eq]
    simp only [lanes32Init, p32_1_eq, p32_2_eq, Spec.lane32, Nat.zero_add, Nat.add_zero]

theorem hash32_ok (B : List Byte) (s : U32) : Machine.hash32 B s = .ok (Spec.hash32 B s) := by
  have hw : (B.length - 16 * (B.length / 16)) / 4 = B.length % 16 / 4 := by omega
  have hq : 16 * (B.length / 16) + 4 * (B.length % 16 / 4) = 4 * (B.length / 4) := by omega
  have hr : B.length - 4 * (B.length / 4) = B.length % 4 := by omega
  simp only [Machine.hash32, Config.block32, head32_ok, ok_bind, hw, hq, hr]
  rw [tailWords32_ok (by omega), ok_bind, tailBytes32_ok (by omega), ok_bind, pure_ok, final32, p32_2_eq, p32_3_eq]
  rfl

theorem head64_ok (B : List Byte) (s : U64) : head64 Config.params B s = .ok
    (if B.length < 32 then s + 2870177450012600261
    else Spec.converge64 (Spec.lanes64 B (B.length / 32) (Spec.lanesOf s))) := by
  rw [head64]
  by_cases h : B.length < 32
  · rw [if_neg (by omega), if_pos h, p64_5_eq]
  · rw [if_pos (by omega), if_neg h, Config.block64, foldBlocks64_ok (by omega), ok_bind, pure_ok, converge64_eq,
      lanes64Init_eq, List.drop_zero]

theorem hash64_ok (B : List Byte) (s : U64) : Machine.hash64 Config.params B s = .ok (Spec.hash64 B s) := by
  rw [Machine.hash64, head64_ok, ok_bind, tail64_ok]
  rfl

/-! ### HASH128, class by class -/

theorem hash128C0_ok (s : U64) : hash128C0 Config.params s = .ok (Spec.h128C0 s) := by
  rw [hash128C0, k64_ok (by omega), k64_ok (by omega), k64_ok (by omega), k64_ok (by omega)]
  simp only [ok_bind, pure_ok, avalanche64_eq, Spec.h128C0]

theorem hash128C1to3_ok {B : List Byte} (s : U64) (h1 : 1 ≤ B.length) (h3 : B.length ≤ 3) :
    hash128C1to3 Config.params B s = .ok (Spec.h128C1to3 B s) := by
  simp only [hash128C1to3]
  rw [read8_ok (by omega), read8_ok (by omega), read8_ok (by omega), k32_ok (by omega), k32_ok (by omega)]
  simp only [ok_bind, pure_ok, avalanche64_eq, Spec.h128C1to3, zext64]
  rw [pack3_eq _ _ _ (by omega)]

theorem hash128C4to8_ok {B : List Byte} (s : U64) (h : 4 ≤ B.length) :
    hash128C4to8 Config.params B s = .ok (Spec.h128C4to8 B s) := by
  simp only [hash128C4to8]
  rw [le32_ok (by omega), le32_ok (by omega), k64_ok (by omega), k64_ok (by omega), k64_ok (by omega),
    k64_ok (by omega)]
  simp only [ok_bind, pure_ok, rrmxmx_eq, join32_eq, seed4to8_eq, trunc64, Spec.h128C4to8]

theorem hash128C9to16_ok {B : List Byte} (s : U64) (h : 8 ≤ B.length) :
    hash128C9to16 Config.params B s = .ok (Spec.h128C9to16 B s) := by
  simp only [hash128C9to16]
  rw [le64_ok (by omega), le64_ok (by omega), k64_ok (by omega), k64_ok (by omega), k64_ok (by omega),
    k64_ok (by omega)]
  simp only [ok_bind, pure_ok, avalanche3_eq, bswap64_eq, mul128Fold64_params, trunc64, Spec.h128C9to16]

/-- Tiers that do not run leave the accumulators (R175). -/
theorem foldlM_tiers_off {B : List Byte} {s : U64} {l : List Nat} (h : ∀ t ∈ l, ¬ 32 * t < B.length)
    (acc : U64 × U64) : l.foldlM (tier17to128 Config.params B s) acc = .ok acc := by
  induction l with
  | nil => rfl
  | cons t l ih =>
    rw [List.foldlM_cons, tier17to128_off (h t (by simp)), ok_bind, ih fun t ht => h t (by simp [ht])]

/-- The tiers below `(n + 31) / 32` run, the others do not (R175). -/
theorem hash128C17to128_ok {B : List Byte} (s : U64) (h17 : 17 ≤ B.length) (h128 : B.length ≤ 128) :
    hash128C17to128 Config.params B s = .ok (Spec.h128C17to128 B s) := by
  obtain ⟨q, hq⟩ : ∃ q, 4 = (B.length + 31) / 32 + q := ⟨4 - (B.length + 31) / 32, by omega⟩
  rw [hash128C17to128, hq, List.range_add, List.foldlM_append, foldlM_sum_pair _
    (fun t => Spec.mix B s (16 * t) (32 * t) + Spec.mix B s (B.length - 16 * (t + 1)) (32 * t + 16))
    (fun t => Spec.mix B s (B.length - 16 * (t + 1)) (32 * t) + Spec.mix B s (16 * t) (32 * t + 16)), ok_bind,
    foldlM_tiers_off, ok_bind, pure_ok]
  · simp only [avalanche3_eq, Spec.h128C17to128, trunc64, prime64_1_eq]
    congr 3
    exact BitVec.zero_add _
  · intro t ht
    obtain ⟨u, -, rfl⟩ := List.mem_map.mp ht
    omega
  · intro acc t ht
    have ht := List.mem_range.mp ht
    exact tier17to128_ok (by omega) (by omega) h17

/-- Eight calls into the low accumulator; the other blocks and the last 16 bytes into the high one (R176). -/
theorem hash128C129to240_ok {B : List Byte} (s : U64) (h129 : 129 ≤ B.length) (h240 : B.length ≤ 240) :
    hash128C129to240 Config.params B s = .ok (Spec.h128C129to240 B s) := by
  simp only [hash128C129to240]
  rw [foldlM_sum _ (fun i => Spec.mix B s (16 * i) (16 * i)), ok_bind, List.range'_eq_map_range, List.foldlM_map,
    foldlM_sum _ (fun i => Spec.mix B s (16 * (i + 8)) (16 * i + 3)), ok_bind, addMix_ok (by omega) (by omega), ok_bind,
    pure_ok]
  · simp only [avalanche3_eq, Spec.h128C129to240, trunc64, prime64_1_eq]
    congr 4
    exact BitVec.zero_add _
  · intro acc i hi
    have hi := List.mem_range.mp hi
    rw [addMix_ok (by omega) (by omega), Nat.add_comm 8 i, Nat.add_sub_cancel]
  · intro acc i hi
    have hi := List.mem_range.mp hi
    exact addMix_ok (by omega) (by omega)

/-- The last 64 bytes again when some bytes follow the last full stripe (R178). -/
theorem longRest_ok {B : List Byte} (s : U64) (h : 64 ≤ B.length) (acc : U64 × U64) :
    longRest Config.params B s acc = .ok
      (acc.1 + (if B.length % 64 = 0 then 0 else Spec.stripeSum B (B.length - 64) s),
        acc.2 + (if B.length % 64 = 0 then 0 else Spec.stripeSum B (B.length - 64) (s + 1))) := by
  rw [longRest, Config.stripe]
  by_cases hr : B.length % 64 = 0
  · rw [if_neg (not_not.mpr hr), if_pos hr, if_pos hr]
    exact congrArg Except.ok (Prod.ext (BitVec.add_zero _).symm (BitVec.add_zero _).symm)
  · rw [if_pos hr, if_neg hr, if_neg hr, longStripe_ok (by omega)]

/-- Every full stripe, then the remaining bytes (R178). -/
theorem hash128C241_ok {B : List Byte} (s : U64) (h : 64 ≤ B.length) :
    hash128C241 Config.params B s = .ok (Spec.h128C241 B s) := by
  simp only [hash128C241, Config.stripe]
  rw [foldlM_sum_pair _ (fun i => Spec.stripeSum B (64 * i) (s + 64 * trunc64 i))
    (fun i => Spec.stripeSum B (64 * i) (s + 64 * trunc64 i + 1)), ok_bind, longRest_ok s h, ok_bind, pure_ok]
  · have add_zero : ∀ x : U64, x + 0 = x := BitVec.add_zero
    simp only [avalanche3_eq, Spec.h128C241, Spec.longSum, trunc64, prime64_1_eq, p64_2_eq, add_zero]
  · intro acc i hi
    have hi := List.mem_range.mp hi
    exact longStripe_ok (by omega)

/-- HASH128 by the ordered classes of R170 (R179). -/
theorem hash128_ok (B : List Byte) (s : U64) : Machine.hash128 Config.params B s = .ok (Spec.hash128 B s) := by
  unfold Machine.hash128 lenClass Spec.hash128
  by_cases h0 : B.length = 0
  · simp only [h0, if_true]; exact hash128C0_ok s
  by_cases h3 : B.length ≤ 3
  · simp only [h0, h3, if_true, if_false]; exact hash128C1to3_ok s (by omega) h3
  by_cases h8 : B.length ≤ 8
  · simp only [h0, h3, h8, if_true, if_false]; exact hash128C4to8_ok s (by omega)
  by_cases h16 : B.length ≤ 16
  · simp only [h0, h3, h8, h16, if_true, if_false]; exact hash128C9to16_ok s (by omega)
  by_cases h128 : B.length ≤ 128
  · simp only [h0, h3, h8, h16, h128, if_true, if_false]; exact hash128C17to128_ok s (by omega) h128
  by_cases h240 : B.length ≤ 240
  · simp only [h0, h3, h8, h16, h128, h240, if_true, if_false]; exact hash128C129to240_ok s (by omega) h240
  · simp only [h0, h3, h8, h16, h128, h240, if_false]; exact hash128C241_ok s (by omega)

end Sys2Proof.OneShot
end

section
/-! SUPPORT. The statements of the family 30_encoding about words: which words decode and to what, the way back, and the
step that runs a decoded word (spec/30_encoding.md R60 to R73). -/

namespace Sys2Proof.EncodingFamily

open Machine Laws

/-! ### What a word that decodes says -/

/-- RSV of the word `w` is zero, and the opcode and the fields that the command `i` reads are those of `i` (R63, R66 to
R68). -/
def Carries (w : U32) (i : Instr) : Prop :=
  rsvOf w = 0 ∧ opcOf w = i.opcode ∧ (i.readsR = true → (rOf w).toNat = i.rField) ∧
    (i.readsK = true → (kOf w).toNat = i.kField)

theorem carries_of_decodeWord {w : U32} {i : Instr} (h : decodeWord w = .ok i) : Carries w i := by
  unfold decodeWord at h
  split at h
  · cases h
  · rename_i hrsv
    refine ⟨not_not.mp hrsv, ?_⟩
    -- every opcode of the map leaves one goal, about the command it stands for
    split at h <;> cases h
    all_goals
      rename_i hopc
      exact ⟨BitVec.eq_of_toNat_eq hopc, by simp [Instr.readsR, Instr.rField], by simp [Instr.readsK, Instr.kField]⟩

theorem decodeWord_of_carries {w : U32} {i : Instr} (h : Carries w i) : decodeWord w = .ok i := by
  obtain ⟨hrsv, hopc, hr, hk⟩ := h
  unfold decodeWord
  rw [if_neg (not_not.mpr hrsv), hopc]
  cases i with
  | rotl32 r => exact congrArg (fun n => Except.ok (Instr.rotl32 n)) (hr rfl)
  | rotl64 r => exact congrArg (fun n => Except.ok (Instr.rotl64 n)) (hr rfl)
  | mix16b k => exact congrArg (fun n => Except.ok (Instr.mix16b n)) (hk rfl)
  | secretRd32 k => exact congrArg (fun n => Except.ok (Instr.secretRd32 n)) (hk rfl)
  | secretRd64 k => exact congrArg (fun n => Except.ok (Instr.secretRd64 n)) (hk rfl)
  | _ => rfl

/-! ### The word a command is written as -/

theorem wellFormed_iff (i : Instr) :
    i.wellFormed = true ↔ (i.readsR = true → i.rField < 64) ∧ (i.readsK = true → i.kField < 256) := by
  cases i <;> simp [Instr.wellFormed, Instr.readsR, Instr.readsK, Instr.rField, Instr.kField]

/-- The word of a well-formed command carries its opcode, its R and its K, with RSV = 0 (R73). -/
theorem encode_fields : ∀ i : Instr, Encoding.Statement i
  | .hash32 => Encoding.hash32
  | .hash64 => Encoding.hash64
  | .hash128 => Encoding.hash128
  | .h64Init => Encoding.h64Init
  | .h64Update => Encoding.h64Update
  | .h64Final => Encoding.h64Final
  | .rotl32 r => Encoding.rotl32 r
  | .rotl64 r => Encoding.rotl64 r
  | .bswap32 => Encoding.bswap32
  | .bswap64 => Encoding.bswap64
  | .aval64 => Encoding.aval64
  | .aval3 => Encoding.aval3
  | .rrmxmx => Encoding.rrmxmx
  | .mul128fold64 => Encoding.mul128fold64
  | .mix16b k => Encoding.mix16b k
  | .secretRd32 k => Encoding.secretRd32 k
  | .secretRd64 k => Encoding.secretRd64 k

theorem encode_carries {i : Instr} (h : i.wellFormed = true) : Carries (encode i) i := by
  obtain ⟨hrsv, hopc, hr, hk⟩ := encode_fields i h
  exact ⟨hrsv, hopc, fun _ => hr, fun _ => hk⟩

/-- The fields of a word fit their places, so what it decodes to is well formed. -/
theorem wellFormed_of_carries {w : U32} {i : Instr} (h : Carries w i) : i.wellFormed = true := by
  obtain ⟨-, -, hr, hk⟩ := h
  exact (wellFormed_iff i).mpr ⟨fun h => hr h ▸ (rOf w).isLt, fun h => hk h ▸ (kOf w).isLt⟩

/-- Settles O4: the word of a command carries the command, and such a word decodes to it. -/
theorem decodeOfEncode : Obligations.DecodeOfEncode := fun _ h => decodeWord_of_carries (encode_carries h)

/-- Settles O5: the given word and the encoded one carry the same command. -/
theorem encodeOfDecode : Obligations.EncodeOfDecode := by
  intro w i h
  have hw := carries_of_decodeWord h
  have hi := wellFormed_of_carries hw
  obtain ⟨hrsv, hopc, hr, hk⟩ := hw
  obtain ⟨hrsv', hopc', hr', hk'⟩ := encode_carries hi
  exact ⟨hi, hopc'.trans hopc.symm, hrsv'.trans hrsv.symm,
    fun h => BitVec.eq_of_toNat_eq ((hr' h).trans (hr h).symm),
    fun h => BitVec.eq_of_toNat_eq ((hk' h).trans (hk h).symm)⟩

/-! ### Which words decode -/

theorem opcode_mem_legalOpcodes (i : Instr) : i.opcode.toNat ∈ legalOpcodes := by
  cases i <;> simp [Instr.opcode, legalOpcodes]

theorem legalWord_of_decodeWord_ok {w : U32} {i : Instr} (h : decodeWord w = .ok i) : legalWord w := by
  obtain ⟨hrsv, hopc, -⟩ := carries_of_decodeWord h
  exact ⟨hrsv, (congrArg (·.toNat ∈ legalOpcodes) hopc).mpr (opcode_mem_legalOpcodes i)⟩

/-- A word is refused for its reserved bits, or because its opcode is none of the map (R68, R69). -/
theorem not_legalWord_of_decodeWord_error {w : U32} {e : DecodeError} (h : decodeWord w = .error e) :
    ¬ legalWord w := by
  rintro ⟨hrsv, hopc⟩
  change rsvOf w = 0 at hrsv
  change (opcOf w).toNat ∈ legalOpcodes at hopc
  unfold decodeWord at h
  rw [if_neg (not_not.mpr hrsv)] at h
  simp only [legalOpcodes, List.mem_cons, List.not_mem_nil, or_false] at hopc
  -- two goals are left: opcode 0x04, and an opcode that is none of those tried
  split at h <;> cases h
  · omega
  · simp_all

theorem decodeWord_ok_iff_legalWord (w : U32) : (∃ i, decodeWord w = .ok i) ↔ legalWord w := by
  refine ⟨fun ⟨_, h⟩ => legalWord_of_decodeWord_ok h, fun hl => ?_⟩
  cases h : decodeWord w with
  | ok i => exact ⟨i, rfl⟩
  | error e => exact absurd hl (not_legalWord_of_decodeWord_error h)

theorem decodeWord_error_of_not_legalWord {w : U32} (hl : ¬ legalWord w) : ∃ e, decodeWord w = .error e := by
  cases h : decodeWord w with
  | ok i => exact absurd (legalWord_of_decodeWord_ok h) hl
  | error e => exact ⟨e, rfl⟩

/-- A word that agrees with `w` in RSV, in the opcode and in what the command reads carries the same command. -/
theorem carries_congr {w w' : U32} {i : Instr} (h : Carries w i) (hopc : opcOf w' = opcOf w)
    (hrsv : rsvOf w' = rsvOf w) (hr : i.readsR = true → rOf w' = rOf w) (hk : i.readsK = true → kOf w' = kOf w) :
    Carries w' i := by
  obtain ⟨h1, h2, h3, h4⟩ := h
  exact ⟨hrsv.trans h1, hopc.trans h2, fun h => (congrArg BitVec.toNat (hr h)).trans (h3 h),
    fun h => (congrArg BitVec.toNat (hk h)).trans (h4 h)⟩

/-- Settles O3: what decodes is legal and what does not is not; and decoding reads no more than the command carries. -/
theorem legalWordsAreExactly : Obligations.LegalWordsAreExactly :=
  ⟨decodeWord_ok_iff_legalWord, fun _ _ _ h hopc hrsv hr hk =>
    decodeWord_of_carries (carries_congr (carries_of_decodeWord h) hopc hrsv hr hk)⟩

/-- Settles O6: each word is one closed evaluation of the decoder. -/
theorem wordsDecodeAsWritten : Obligations.WordsDecodeAsWritten := by
  unfold Obligations.WordsDecodeAsWritten
  decide

/-! ### The step on a word -/

theorem runCaptured_of_decodeWord_ok {s : State} {i : Instr} (h : decodeWord s.cmd.word = .ok i) :
    runCaptured s = exec i s := by rw [runCaptured, h]

theorem runCaptured_of_decodeWord_error {s : State} {e : DecodeError} (h : decodeWord s.cmd.word = .error e) :
    runCaptured s = .next (s.respond ⟨1, 0, 0⟩) := by
  rw [runCaptured, h]
  rfl

/-- Settles O1: a command that can be issued is captured, and its word decides what runs. -/
theorem stepRunsTheDecodedCommand : Obligations.StepRunsTheDecodedCommand := by
  intro s c rest i hp hl hd
  rw [step_captured hp hl, runCaptured_of_decodeWord_ok (s := s.capture c rest) hd]

/-- Settles O2: an illegal word decodes to an error, whatever the context holds. -/
theorem illegalWordRaisesIllegal : Obligations.IllegalWordRaisesIllegal := by
  intro s c rest hp hl hw
  obtain ⟨e, he⟩ := decodeWord_error_of_not_legalWord hw
  rw [step_captured hp hl, runCaptured_of_decodeWord_error (s := s.capture c rest) he]

end Sys2Proof.EncodingFamily
end

section
/-! SUPPORT. The statements of the family 30_encoding about responses: their shape, and the operands they depend on
(spec/30_encoding.md R61, R62, R66). -/

namespace Sys2Proof.ResponseFamily

open Machine Laws

/-! ### The shape of a response -/

/-- The commands with a 32-bit result. -/
abbrev Answers32 (i : Instr) : Prop :=
  i = .hash32 ∨ i = .bswap32 ∨ (∃ n, i = .rotl32 n) ∨ ∃ k, i = .secretRd32 k

/-- The commands that answer no result. -/
abbrev AnswersNothing (i : Instr) : Prop := i = .h64Init ∨ i = .h64Update

/-- What R62 says of a response of the command `i`. -/
def Shape (i : Instr) (r : Response) : Prop :=
  (i ≠ .hash128 → r.hi = 0) ∧ (Answers32 i → r.lo.toNat < 2 ^ 32) ∧ (AnswersNothing i → r.lo = 0)

theorem shape_zero (i : Instr) (status : BitVec 8) : Shape i ⟨status, 0, 0⟩ :=
  ⟨fun _ => rfl, fun _ => (by decide : (0 : U64).toNat < 2 ^ 32), fun _ => rfl⟩

theorem shape_word {i : Instr} (h : ¬ (Answers32 i ∨ AnswersNothing i)) (x : U64) : Shape i (.ok x 0) :=
  ⟨fun _ => rfl, fun h' => absurd (.inl h') h, fun h' => absurd (.inr h') h⟩

theorem shape_zext64 {i : Instr} (h : ¬ AnswersNothing i) (v : U32) : Shape i (.ok (zext64 v) 0) := by
  refine ⟨fun _ => rfl, fun _ => ?_, fun h' => absurd h' h⟩
  change (v.setWidth 64).toNat < 2 ^ 32
  rw [BitVec.toNat_setWidth_of_le (by decide)]
  exact v.isLt

theorem shape_hash128 (r : Response) : Shape .hash128 r :=
  ⟨fun h => absurd rfl h, fun h => absurd h (by simp), fun h => absurd h (by simp)⟩

/-- A next state that the command `i` reaches from `s` has one more response, of the shape of R62. -/
def AnswersInShape (i : Instr) (s : State) (o : Host.Outcome State Fault Refusal) : Prop :=
  ∀ t, o = .next t → ∃ r, t.responses = s.responses ++ [r] ∧ Shape i r

section
variable {i : Instr} {s : State}

theorem respond_inShape {r : Response} (h : Shape i r) : AnswersInShape i s (.next (s.respond r)) := by
  rintro _ ⟨⟩
  exact ⟨r, rfl, h⟩

theorem complete64_inShape (h : ∀ v, Shape i (.ok v 0)) (x : Except Fault U64) :
    AnswersInShape i s (s.complete64 x) := by
  intro t ht
  obtain ⟨v, -, rfl⟩ := complete64_eq_next ht
  exact ⟨_, rfl, h v⟩

theorem complete32_inShape (h : ∀ v, Shape i (.ok (zext64 v) 0)) (x : Except Fault U32) :
    AnswersInShape i s (s.complete32 x) := by
  intro t ht
  obtain ⟨v, -, rfl⟩ := complete32_eq_next ht
  exact ⟨_, rfl, h v⟩

theorem hash128_inShape (x : Except Fault (U64 × U64)) : AnswersInShape .hash128 s (s.complete x) := by
  intro t ht
  obtain ⟨lo, hi, -, rfl⟩ := complete_eq_next ht
  exact ⟨_, rfl, shape_hash128 _⟩

/-- A command that first checks its secret offset (R203). -/
theorem ite_raise_inShape {o : Host.Outcome State Fault Refusal} (p : Prop) [Decidable p] (e : Err)
    (h : AnswersInShape i s o) : AnswersInShape i s (if p then s.raise e else o) := by
  split
  · exact respond_inShape (shape_zero i _)
  · exact h

/-- A streaming command answers STATE, no result, or the hash. -/
theorem streaming_inShape (hi : i.streaming = true) : AnswersInShape i s (exec i s) := by
  intro t ht
  cases exec_effect ht with
  | respond r _ hs =>
    obtain ⟨rfl, -⟩ := hs hi
    exact ⟨_, rfl, shape_zero _ _⟩
  | init => exact ⟨_, rfl, shape_zero _ _⟩
  | update => exact ⟨_, rfl, shape_zero _ _⟩
  | final => exact ⟨_, rfl, shape_word (by simp) _⟩

end

theorem exec_inShape (i : Instr) (s : State) : AnswersInShape i s (exec i s) := by
  cases i with
  | hash32 => exact complete32_inShape (shape_zext64 (by simp)) _
  | hash64 => exact complete64_inShape (shape_word (by simp)) _
  | hash128 => exact hash128_inShape _
  | h64Init => exact streaming_inShape rfl
  | h64Update => exact streaming_inShape rfl
  | h64Final => exact streaming_inShape rfl
  | rotl32 r => exact respond_inShape (shape_zext64 (by simp) _)
  | rotl64 r => exact respond_inShape (shape_word (by simp) _)
  | bswap32 => exact respond_inShape (shape_zext64 (by simp) _)
  | bswap64 => exact respond_inShape (shape_word (by simp) _)
  | aval64 => exact respond_inShape (shape_word (by simp) _)
  | aval3 => exact respond_inShape (shape_word (by simp) _)
  | rrmxmx => exact respond_inShape (shape_word (by simp) _)
  | mul128fold64 => exact respond_inShape (shape_word (by simp) _)
  | mix16b k => exact ite_raise_inShape _ _ (complete64_inShape (shape_word (by simp)) _)
  | secretRd32 k => exact ite_raise_inShape _ _ (complete32_inShape (shape_zext64 (by simp)) _)
  | secretRd64 k => exact ite_raise_inShape _ _ (complete64_inShape (shape_word (by simp)) _)

/-- Settles O15: the new response is the one the command's ending returns, and each ending returns one of its shape. -/
theorem responseShape : Obligations.ResponseShape := by
  intro i s t r hex hr
  obtain ⟨r', hr', hshape⟩ := exec_inShape i s t hex
  obtain rfl : r = r' := List.singleton_inj.mp (List.append_cancel_left (hr.symm.trans hr'))
  exact hshape

/-! ### The operands a command depends on -/

/-- Two outcomes of the command `i`, from `s` and from `t`: the same fault, or next states with the same new response
and, for a streaming command, the same `ctx`. -/
inductive SameAnswer (i : Instr) (s t : State) :
    Host.Outcome State Fault Refusal → Host.Outcome State Fault Refusal → Prop
  | next {c d : Ctx} (h : i.streaming = true → c = d) (r : Response) :
      SameAnswer i s t (.next ((s.setCtx c).respond r)) (.next ((t.setCtx d).respond r))
  | fault (f : Fault) : SameAnswer i s t (.fault f) (.fault f)

theorem sameAnswer_next_left {i : Instr} {s t s' : State} {o : Host.Outcome State Fault Refusal}
    (h : SameAnswer i s t (.next s') o) :
    ∃ t' r, o = .next t' ∧ s'.responses = s.responses ++ [r] ∧ t'.responses = t.responses ++ [r] ∧
      (i.streaming = true → s'.ctx = t'.ctx) := by
  cases h with
  | next h r => exact ⟨_, r, rfl, rfl, rfl, h⟩

section
variable {i : Instr} {s t : State} (hctx : i.streaming = true → s.ctx = t.ctx)
include hctx

theorem respond_sameAnswer {r q : Response} (h : r = q) :
    SameAnswer i s t (.next (s.respond r)) (.next (t.respond q)) := h ▸ .next hctx r

theorem ret_sameAnswer {x y : U64} (h : x = y) : SameAnswer i s t (s.ret x 0) (t.ret y 0) :=
  respond_sameAnswer hctx (h ▸ rfl)

theorem complete_sameAnswer {x y : Except Fault (U64 × U64)} (h : x = y) :
    SameAnswer i s t (s.complete x) (t.complete y) := by
  subst h
  cases x with
  | ok r => exact respond_sameAnswer hctx rfl
  | error f => exact .fault f

theorem complete64_sameAnswer {x y : Except Fault U64} (h : x = y) :
    SameAnswer i s t (s.complete64 x) (t.complete64 y) := complete_sameAnswer hctx (h ▸ rfl)

theorem complete32_sameAnswer {x y : Except Fault U32} (h : x = y) :
    SameAnswer i s t (s.complete32 x) (t.complete32 y) := complete64_sameAnswer hctx (h ▸ rfl)

/-- A command that first checks its secret offset (R203). -/
theorem ite_raise_sameAnswer {o p : Host.Outcome State Fault Refusal} (c : Prop) [Decidable c] (e : Err)
    (h : SameAnswer i s t o p) : SameAnswer i s t (if c then s.raise e else o) (if c then t.raise e else p) := by
  split
  · exact respond_sameAnswer hctx rfl
  · exact h

end

theorem h64Update_sameAnswer {s t : State} (hctx : s.ctx = t.ctx) (hdata : s.opData = t.opData) :
    SameAnswer .h64Update s t (exec .h64Update s) (exec .h64Update t) := by
  change SameAnswer _ _ _ (execH64Update s) (execH64Update t)
  rw [execH64Update, execH64Update, ← hctx, ← hdata]
  split
  · split
    · exact .next (fun _ => rfl) _
    · exact .fault _
  · exact respond_sameAnswer (fun _ => hctx) rfl

theorem h64Final_sameAnswer {s t : State} (hctx : s.ctx = t.ctx) :
    SameAnswer .h64Final s t (exec .h64Final s) (exec .h64Final t) := by
  change SameAnswer _ _ _ (execH64Final s) (execH64Final t)
  rw [execH64Final, execH64Final, ← hctx]
  split
  · cases s.ctx.result Config.params with
    | ok x => exact .next (fun _ => rfl) _
    | error f => exact .fault f
  · exact respond_sameAnswer (fun _ => hctx) rfl

/-- Each command's outcome is a function of the operands in its row of R66. -/
theorem exec_sameAnswer {i : Instr} {s t : State} (h : agreeOn i s.cmd t.cmd)
    (hctx : i.streaming = true → s.ctx = t.ctx) : SameAnswer i s t (exec i s) (exec i t) := by
  cases i with
  | hash32 => exact complete32_sameAnswer hctx (congrArg₂ Machine.hash32 h.2 h.1)
  | hash64 => exact complete64_sameAnswer hctx (congrArg₂ (Machine.hash64 Config.params) h.2 h.1)
  | hash128 => exact complete_sameAnswer hctx (congrArg₂ (Machine.hash128 Config.params) h.2 h.1)
  | h64Init => exact .next (fun _ => congrArg₂ (Ctx.start Config.params) (hctx rfl) h) _
  | h64Update => exact h64Update_sameAnswer (hctx rfl) h
  | h64Final => exact h64Final_sameAnswer (hctx rfl)
  | rotl32 r => exact ret_sameAnswer hctx (congrArg (fun a => zext64 (rotl32 a r)) h)
  | rotl64 r => exact ret_sameAnswer hctx (congrArg (fun a => rotl64 a r) h)
  | bswap32 => exact ret_sameAnswer hctx (congrArg (fun a => zext64 (bswap32 a)) h)
  | bswap64 => exact ret_sameAnswer hctx (congrArg bswap64 h)
  | aval64 => exact ret_sameAnswer hctx (congrArg avalanche64 h)
  | aval3 => exact ret_sameAnswer hctx (congrArg avalanche3 h)
  | rrmxmx => exact ret_sameAnswer hctx (congrArg₂ rrmxmx h.1 h.2)
  | mul128fold64 => exact ret_sameAnswer hctx (congrArg₂ (mul128Fold64 Config.params) h.1 h.2)
  | mix16b k =>
    obtain ⟨hseed, ha, hb⟩ := h
    have hin : s.opIn16 = t.opIn16 := congrArg₂ (fun a b => bytes64 a ++ bytes64 b) ha hb
    exact ite_raise_sameAnswer hctx _ _ (complete64_sameAnswer hctx
      (congrArg₂ (fun in16 seed => mix16B Config.params in16 k seed) hin hseed))
  | secretRd32 k => exact ite_raise_sameAnswer hctx _ _ (complete32_sameAnswer hctx rfl)
  | secretRd64 k => exact ite_raise_sameAnswer hctx _ _ (complete64_sameAnswer hctx rfl)

/-- Settles O18: the two outcomes are the same answer. -/
theorem commandsReadOnlyTheirOperands : Obligations.CommandsReadOnlyTheirOperands := by
  intro i s t s' hagree hctx hex
  exact sameAnswer_next_left (hex ▸ exec_sameAnswer hagree hctx)

end Sys2Proof.ResponseFamily
end

section
/-! SUPPORT. The progress statement of the family 30_encoding: every command is answered (spec/30_encoding.md R60). -/

namespace Sys2Proof.ProgressFamily

open Machine Laws OneShot

theorem complete64_next {s : State} {x : Except Fault U64} {r : U64} (h : x = .ok r) :
    ∃ t, s.complete64 x = .next t := ⟨_, congrArg s.complete64 h⟩

theorem complete32_next {s : State} {x : Except Fault U32} {r : U32} (h : x = .ok r) :
    ∃ t, s.complete32 x = .next t := ⟨_, congrArg s.complete32 h⟩

/-- A command that first checks its secret offset against the limit of its reads (R203). -/
theorem ite_raise_next {s : State} {p : Prop} [Decidable p] {e : Err} {o : Host.Outcome State Fault Refusal}
    (h : ¬ p → ∃ t, o = .next t) : ∃ t, (if p then s.raise e else o) = .next t := by
  by_cases hp : p
  · exact ⟨_, if_pos hp⟩
  · rw [if_neg hp]
    exact h hp

theorem h64Update_next {s : State} (hs : s.ctx.Inv) : ∃ t, exec .h64Update s = .next t := by
  by_cases ha : s.ctx.st = .active
  · obtain ⟨pend, hp, -⟩ := pending_ok (hs.2 ha).1
    exact ⟨_, h64Update_active ha hp⟩
  · exact ⟨_, h64Update_inactive ha⟩

theorem h64Final_next {s : State} (hs : s.ctx.Inv) : ∃ t, exec .h64Final s = .next t := by
  by_cases ha : s.ctx.st = .active
  · obtain ⟨pend, hp, -⟩ := pending_ok (hs.2 ha).1
    exact ⟨_, h64Final_active ha hp⟩
  · exact ⟨_, h64Final_inactive ha⟩

theorem opIn16_length (s : State) : s.opIn16.length = 16 := by
  rw [State.opIn16, List.length_append, bytes64_length, bytes64_length]

/-- Every command ends in a next state: its reads stay inside their byte spaces, the secret limits of R203 and the
invariant of `ctx` being what keeps them there. -/
theorem exec_next {s : State} (hs : s.ctx.Inv) (i : Instr) : ∃ t, exec i s = .next t := by
  cases i with
  | hash32 => exact complete32_next (hash32_ok _ _)
  | hash64 => exact complete64_next (hash64_ok _ _)
  | hash128 => exact ⟨_, congrArg s.complete (hash128_ok s.opData s.opSeed)⟩
  | h64Update => exact h64Update_next hs
  | h64Final => exact h64Final_next hs
  | mix16b k => exact ite_raise_next fun hk => complete64_next (mix16B_ok (opIn16_length s) (by omega) _)
  | secretRd32 k => exact ite_raise_next fun hk => complete32_next (k32_ok (by omega))
  | secretRd64 k => exact ite_raise_next fun hk => complete64_next (k64_ok (by omega))
  | h64Init | rotl32 | rotl64 | bswap32 | bswap64 | aval64 | aval3 | rrmxmx | mul128fold64 => exact ⟨_, rfl⟩

/-- Running the captured command adds one response and keeps what the host has still to present. -/
theorem runCaptured_responds {s : State} (hs : s.ctx.Inv) :
    ∃ t r, runCaptured s = .next t ∧ t.cmd = s.cmd ∧ t.pending = s.pending ∧ t.responses = s.responses ++ [r] := by
  cases hd : decodeWord s.cmd.word with
  | error e => exact ⟨_, _, EncodingFamily.runCaptured_of_decodeWord_error hd, rfl, rfl, rfl⟩
  | ok i =>
    obtain ⟨t, ht⟩ := exec_next hs i
    obtain ⟨r, -, hr⟩ := StateFamily.effect_setCtx_respond (exec_effect ht)
    refine ⟨t, r, (EncodingFamily.runCaptured_of_decodeWord_ok hd).trans ht, ?_, ?_, ?_⟩ <;> rw [hr] <;> rfl

/-- Settles O11: with no command the step holds, a command that can be issued is captured and run, any other refused. -/
theorem everyCommandIsAnswered : Obligations.EveryCommandIsAnswered := by
  refine fun s hs => ⟨step_idle, fun c rest hp => ⟨fun hl => ?_, fun hl => step_tooLong hp (Nat.not_lt.mpr hl)⟩⟩
  rw [step_captured hp hl]
  exact runCaptured_responds (s := s.capture c rest) hs.1

end Sys2Proof.ProgressFamily
end

section
/-! SUPPORT. The statements of the family 40_mixing_primitives: the laws of the primitives, and the commands that expose
them one by one (spec/40_mixing_primitives.md R80 to R100). -/

namespace Sys2Proof.MixingFamily

open Machine Laws

/-! ### The laws of the primitives (R89) -/

/-- Settles O24: the model's rotates are `BitVec.rotateLeft`, whose amounts add. -/
theorem rotationsCompose : Obligations.RotationsCompose := by
  refine ⟨fun v a b => ⟨rfl, ?_⟩, fun v a b => ⟨rfl, ?_⟩⟩
  · simp only [rotl32_eq, rotateLeft_add]
  · simp only [rotl64_eq, rotateLeft_add]

theorem bswap32_byte (v : U32) {k : Nat} (h : k < 4) :
    (bswap32 v).extractLsb' (8 * k) 8 = v.extractLsb' (8 * (3 - k)) 8 := by
  rw [bswap32_eq, swap32_byte v k h]

theorem bswap64_byte (v : U64) {k : Nat} (h : k < 8) :
    (bswap64 v).extractLsb' (8 * k) 8 = v.extractLsb' (8 * (7 - k)) 8 := by
  rw [bswap64_eq, swap64_byte v k h]

/-- Settles O26: byte k goes to place 3 - k, or 7 - k, and back, and a word is its bytes. -/
theorem byteReversalTwice : Obligations.ByteReversalTwice := by
  constructor
  · intro v
    refine eq_of_bytes (n := 4) _ _ fun k hk => ?_
    rw [bswap32_byte _ hk, bswap32_byte _ (by omega), Nat.sub_sub_self (by omega)]
  · intro v
    refine eq_of_bytes (n := 8) _ _ fun k hk => ?_
    rw [bswap64_byte _ hk, bswap64_byte _ (by omega), Nat.sub_sub_self (by omega)]

theorem avalanche64_injective : Function.Injective avalanche64 := by
  have mul2 := mul_injective (c := Config.p64_2) (d := 0x0BA79078168D4BAF) (by decide)
  have mul3 := mul_injective (c := Config.p64_3) (d := 0xE9E9F4C41D6DF849) (by decide)
  have shift {k : Nat} (hk : 0 < k) := xorshift_injective hk
  exact (shift (k := 32) (by decide)).comp <| mul3.comp <| (shift (k := 29) (by decide)).comp <|
    mul2.comp (shift (k := 33) (by decide))

theorem avalanche3_injective : Function.Injective avalanche3 := by
  have mul := mul_injective (c := Config.mx3) (d := 0x08DA8EE41D6DF849) (by decide)
  exact (xorshift_injective (k := 32) (by decide)).comp <| mul.comp (xorshift_injective (k := 37) (by decide))

/-- Settles O28: each finalizer is a chain of xorshifts and multiplications by odd numbers, all injective, and an
injective function on a finite type is a bijection. -/
theorem avalanchesAreBijections : Obligations.AvalanchesAreBijections := by
  have : Finite U64 := Finite.of_equiv _ BitVec.equivFin.toEquiv.symm
  exact ⟨Finite.injective_iff_bijective.mp avalanche64_injective,
    Finite.injective_iff_bijective.mp avalanche3_injective⟩

/-! ### The fold (R87, R89) -/

theorem fold_comm (a b : U64) : Spec.fold a b = Spec.fold b a := by
  rw [Spec.fold, Spec.fold, BitVec.mul_comm a, BitVec.mul_comm (a >>> 32)]

theorem foldXor_comm (a b : U64) : foldXor a b = foldXor b a := by
  rw [foldXor, foldXor, BitVec.mul_comm (a.setWidth 128)]

/-- The product of the high halves is 0 when the product is below 2^64. -/
theorem high_halves_product_zero {a b : U64} (h : a.toNat * b.toNat < 2 ^ 64) : (a >>> 32) * (b >>> 32) = 0 := by
  have hz : a.toNat / 2 ^ 32 * (b.toNat / 2 ^ 32) = 0 := Nat.le_zero.mp <|
    calc a.toNat / 2 ^ 32 * (b.toNat / 2 ^ 32) ≤ a.toNat * b.toNat / (2 ^ 32 * 2 ^ 32) := Nat.div_mul_div_le ..
      _ = 0 := Nat.div_eq_of_lt h
  apply BitVec.eq_of_toNat_eq
  rw [BitVec.toNat_mul, BitVec.toNat_ushiftRight, BitVec.toNat_ushiftRight, Nat.shiftRight_eq_div_pow,
    Nat.shiftRight_eq_div_pow, hz]
  rfl

theorem fold_eq_mul_of_lt {a b : U64} (h : a.toNat * b.toNat < 2 ^ 64) : Spec.fold a b = a * b := by
  rw [Spec.fold, high_halves_product_zero h]
  exact BitVec.add_zero _

/-- The 128-bit product of R87 does not wrap. -/
theorem toNat_wide_mul (a b : U64) : (a.setWidth 128 * b.setWidth 128).toNat = a.toNat * b.toNat := by
  have ha := a.isLt
  have hb := b.isLt
  rw [BitVec.toNat_mul, BitVec.toNat_setWidth_of_le (by decide), BitVec.toNat_setWidth_of_le (by decide)]
  exact Nat.mod_eq_of_lt (by nlinarith)

theorem foldXor_eq_mul_of_lt {a b : U64} (h : a.toNat * b.toNat < 2 ^ 64) : foldXor a b = a * b := by
  have low : (a.setWidth 128 * b.setWidth 128).extractLsb' 0 64 = a * b := by
    apply BitVec.eq_of_toNat_eq
    rw [BitVec.extractLsb'_toNat, toNat_wide_mul, Nat.shiftRight_zero, BitVec.toNat_mul]
  have high : (a.setWidth 128 * b.setWidth 128).extractLsb' 64 64 = 0 := by
    apply BitVec.eq_of_toNat_eq
    rw [BitVec.extractLsb'_toNat, toNat_wide_mul, Nat.shiftRight_eq_div_pow, Nat.div_eq_of_lt h]
    rfl
  rw [foldXor, low, high]
  exact BitVec.xor_zero

/-- Every fold is one of the two, whatever the other parameters are. -/
theorem mul128Fold64_eq (P : Config.Params) (a b : U64) :
    mul128Fold64 P a b = if P.foldMode = .sum then Spec.fold a b else foldXor a b := by
  unfold mul128Fold64
  cases P.foldMode with
  | sum => exact foldSum_eq a b
  | xor => rfl

/-- Below 2^64 both folds are the product. -/
theorem mul128Fold64_of_lt (P : Config.Params) {a b : U64} (h : a.toNat * b.toNat < 2 ^ 64) :
    mul128Fold64 P a b = a * b := by
  rw [mul128Fold64_eq, fold_eq_mul_of_lt h, foldXor_eq_mul_of_lt h, ite_self]

/-- Settles O31: both folds are symmetric, and below 2^64 both are the product. -/
theorem foldLaws : Obligations.FoldLaws := by
  refine ⟨fun P a b => ⟨?_, ?_⟩, fun P Q a b h => ?_⟩
  · simp only [mul128Fold64_eq, fold_comm a b, foldXor_comm a b]
  · exact (mul128Fold64_of_lt P (by simp)).trans BitVec.zero_mul
  · rw [mul128Fold64_of_lt P h, mul128Fold64_of_lt Q h]

/-! ### The words of the commands (R63, R67, R68) -/

/-- The words of an opcode are the command whose opcode it is and whose fields are those of the word. -/
theorem encodedBy_of_fields {opc : BitVec 8} {f : U32 → Instr} (ho : ∀ w, (f w).opcode = opc)
    (hr : ∀ w, (f w).readsR = true → (f w).rField = fieldR w)
    (hk : ∀ w, (f w).readsK = true → (f w).kField = fieldK w) : encodedBy opc f :=
  encodedBy_of fun w hrsv hopc => EncodingFamily.decodeWord_of_carries
    ⟨hrsv, hopc.trans (ho w).symm, fun h => (hr w h).symm, fun h => (hk w h).symm⟩

/-- The words of a command that reads neither R nor K. -/
theorem encodedBy_fixed {opc : BitVec 8} {i : Instr} (ho : i.opcode = opc) (hr : i.readsR = false)
    (hk : i.readsK = false) : encodedBy opc fun _ => i :=
  encodedBy_of_fields (fun _ => ho) (fun _ h => absurd h (by simp [hr])) (fun _ h => absurd h (by simp [hk]))

/-! ### The commands (R90 to R100) -/

/-- A command that returns the word `x`, said as its response. -/
theorem ret_eq (s : State) {x y : U64} (h : x = y) : s.ret x 0 = .next (s.respond ⟨0, y, 0⟩) := h ▸ rfl

/-- Settles O23: the fields R of the words, and the rotates as `BitVec.rotateLeft`. -/
theorem rotateCommands : Obligations.RotateCommands := by
  refine ⟨encodedBy_of_fields (fun _ => rfl) (fun _ _ => rfl) nofun,
    encodedBy_of_fields (fun _ => rfl) (fun _ _ => rfl) nofun, fun _ s => ⟨ret_eq s ?_, ret_eq s ?_⟩⟩
  · rw [rotl32_eq, BitVec.rotateLeft_mod_eq_rotateLeft]
    rfl
  · rw [rotl64_eq, BitVec.rotateLeft_mod_eq_rotateLeft]
    rfl

/-- Settles O25: the results are the reversed words, byte by byte. -/
theorem byteReversalCommands : Obligations.ByteReversalCommands := by
  refine ⟨encodedBy_fixed rfl rfl rfl, encodedBy_fixed rfl rfl rfl, fun s =>
    ⟨bswap32 s.opA32, bswap64 s.opA, rfl, rfl, fun k hk => ?_, fun k hk => bswap64_byte s.opA hk⟩⟩
  rw [bswap32_byte _ hk, State.opA32, lo32, BitVec.extractLsb'_extractLsb'_of_le (by omega)]

/-- Settles O27: the model's finalizers are the rules', and the known values are closed evaluations. -/
theorem avalancheCommands : Obligations.AvalancheCommands :=
  ⟨encodedBy_fixed rfl rfl rfl, encodedBy_fixed rfl rfl rfl,
    fun s => ⟨ret_eq s (avalanche64_eq _), ret_eq s (avalanche3_eq _)⟩,
    by decide, by decide, by decide, by decide⟩

/-- Settles O29: the model's `rrmxmx` is the rule's, and the known values are closed evaluations. -/
theorem rrmxmxCommand : Obligations.RrmxmxCommand :=
  ⟨encodedBy_fixed rfl rfl rfl, fun s => ret_eq s (rrmxmx_eq _ _), by decide, by decide, by decide⟩

/-- Settles O30: the decided mode is SUM, whose three partial products add up to the law of R89. -/
theorem mul128Fold64Command : Obligations.Mul128Fold64Command := by
  refine ⟨encodedBy_fixed rfl rfl rfl, fun s => ret_eq s ?_⟩
  rw [mul128Fold64_params, Spec.fold]
  rfl

section
variable {p : Prop} [Decidable p] {s : State} {o : Host.Outcome State Fault Refusal}

/-- A command whose secret offset is above its limit raises RANGE (R203). -/
theorem ite_raise_range_of_pos (h : p) : (if p then s.raise .range else o) = .next (s.respond ⟨3, 0, 0⟩) := if_pos h

/-- A command whose secret offset is in its limit ends with the word its reads compute. -/
theorem ite_raise_complete64_of_neg (h : ¬ p) {x : Except Fault U64} {r : U64} (hx : x = .ok r) :
    (if p then s.raise .range else s.complete64 x) = .next (s.respond ⟨0, r, 0⟩) := by
  rw [if_neg h, hx]
  rfl

theorem ite_raise_complete32_of_neg (h : ¬ p) {x : Except Fault U32} {r : U32} (hx : x = .ok r) :
    (if p then s.raise .range else s.complete32 x) = .next (s.respond ⟨0, r.setWidth 64, 0⟩) := by
  rw [if_neg h, hx]
  rfl

end

/-- The mixer on the 16 bytes of A and B is the fold of the two words with the secret and the seed (R88, R98). -/
theorem mix_opIn16 (s : State) (k : Nat) : Spec.mix s.opIn16 s.opSeed 0 k =
    Spec.fold (s.cmd.a ^^^ (Spec.K64 k + s.cmd.seed)) (s.cmd.b ^^^ (Spec.K64 (k + 8) - s.cmd.seed)) := by
  obtain ⟨ha, hb⟩ := word64At_append_bytes64 s.cmd.a s.cmd.b
  rw [Spec.mix, State.opIn16, ha, hb, State.opSeed]

/-- Settles O32: up to 176 the four reads stay inside their bytes and the table. -/
theorem mix16bCommand : Obligations.Mix16bCommand := by
  refine ⟨encodedBy_of_fields (fun _ => rfl) nofun (fun _ _ => rfl),
    fun k s => ⟨fun hk => ?_, fun hk => ite_raise_range_of_pos hk⟩⟩
  rw [← mix_opIn16]
  exact ite_raise_complete64_of_neg (Nat.not_lt.mpr hk) (mix16B_ok (ProgressFamily.opIn16_length s) hk _)

/-- Settles O33: up to 188, and 184, the read stays inside the table. -/
theorem secretReadCommands : Obligations.SecretReadCommands :=
  ⟨encodedBy_of_fields (fun _ => rfl) nofun (fun _ _ => rfl),
    encodedBy_of_fields (fun _ => rfl) nofun (fun _ _ => rfl), fun _ _ =>
    ⟨fun hk => ite_raise_complete32_of_neg (Nat.not_lt.mpr hk) (k32_ok hk), fun hk => ite_raise_range_of_pos hk,
      fun hk => ite_raise_complete64_of_neg (Nat.not_lt.mpr hk) (k64_ok hk), fun hk => ite_raise_range_of_pos hk⟩⟩

end Sys2Proof.MixingFamily
end

section
/-! SUPPORT. The statements of the family 41_xxhash32_engine: what HASH32 answers, and the independence of its four
lanes (spec/41_xxhash32_engine.md R122, R125, R127). -/

namespace Sys2Proof.Hash32Family

open Machine Laws

/-- HASH32 ends with the word its engine computes from DATA and SEED[31:0] (R125). -/
theorem exec_hash32 (s : State) :
    exec .hash32 s = s.complete32 (.ok (Spec.hash32 s.opData s.opSeed32)) :=
  congrArg s.complete32 (OneShot.hash32_ok s.opData s.opSeed32)

/-- Settles O34: opcode 0x01 reads neither R nor K, and the engine's reads all succeed. -/
theorem hash32Command : Obligations.Hash32Command := by
  refine ⟨MixingFamily.encodedBy_fixed rfl rfl rfl, fun s => ?_⟩
  rw [exec_hash32, complete32_ok]
  rfl

/-- A lane is a fold of its own words: the same start and the same `k` words give the same end (R122). -/
theorem foldl_round32_congr {f g : Nat → U32} {k : Nat} {x y : U32} (hxy : x = y) (hfg : ∀ i < k, f i = g i) :
    (List.range k).foldl (fun acc i => Spec.round32 acc (f i)) x =
      (List.range k).foldl (fun acc i => Spec.round32 acc (g i)) y := by
  subst hxy
  exact List.foldl_ext _ _ _ fun acc i hi => congrArg (Spec.round32 acc) (hfg i (List.mem_range.mp hi))

/-- Settles O35: the block loop succeeds, and each of its lanes is a fold of its own word of each block. -/
theorem lanesAreIndependent : Obligations.LanesAreIndependent := by
  intro B B' k v v' hB hB'
  refine ⟨_, _, foldBlocks32_ok (by omega), foldBlocks32_ok (by omega), ?_⟩
  simp only [Nat.zero_add]
  exact ⟨foldl_round32_congr, foldl_round32_congr, foldl_round32_congr, foldl_round32_congr⟩

end Sys2Proof.Hash32Family
end

section
/-! SUPPORT. The statements of the family 42_xxhash64_engine: HASH64, what the three streaming commands do to `ctx`, and
the invariance of the hash under the cut of its input into chunks (spec/42_xxhash64_engine.md R145 to R157). -/

namespace Sys2Proof.Hash64Family

open Machine Laws

/-! ### The commands, each as one equation -/

/-- H64_INIT answers the started context in every stream state (R150). -/
theorem exec_h64Init (s : State) :
    exec .h64Init s = .next ((s.setCtx (s.ctx.start Config.params s.cmd.seed)).respond ⟨0, 0, 0⟩) := rfl

/-- HASH64 ends with the word its engine computes from DATA and SEED (R145). -/
theorem exec_hash64 (s : State) :
    exec .hash64 s = .next (s.respond ⟨0, Spec.hash64 s.cmd.data s.cmd.seed, 0⟩) :=
  congrArg s.complete64 (OneShot.hash64_ok s.cmd.data s.cmd.seed)

/-- A command the host writes, at the head of its list, is the one that runs. -/
theorem step_commandOf {s : State} {i : Instr} {seed a b : U64} {data : List Byte} {rest : List Command}
    (hp : s.pending = commandOf i seed a b data :: rest) (hi : i.wellFormed = true) (hl : data.length < 2 ^ 64) :
    step s = exec i (s.capture (commandOf i seed a b data) rest) :=
  (step_captured hp hl).trans (EncodingFamily.runCaptured_of_decodeWord_ok (EncodingFamily.decodeOfEncode i hi))

/-! ### One command -/

/-- Settles O47: opcode 0x08 reads neither R nor K, and the lanes are those the rule gives the seed. -/
theorem h64InitStartsAStream : Obligations.H64InitStartsAStream := by
  refine ⟨MixingFamily.encodedBy_fixed rfl rfl rfl, fun s => ?_⟩
  rw [exec_h64Init, ← lanes64Init_eq]
  rfl

/-- Settles O36: opcode 0x02 reads neither R nor K, and the engine's reads all succeed. -/
theorem hash64Command : Obligations.Hash64Command :=
  ⟨MixingFamily.encodedBy_fixed rfl rfl rfl, exec_hash64⟩

/-- Settles O48: outside ACTIVE the command raises STATE; in ACTIVE the pending bytes have been written, and the new context
is `absorbed`. -/
theorem h64UpdateFoldsAndKeeps : Obligations.H64UpdateFoldsAndKeeps := by
  refine ⟨MixingFamily.encodedBy_fixed rfl rfl rfl, fun s hinv => ⟨fun hina => h64Update_inactive hina, fun hact => ?_⟩⟩
  obtain ⟨pend, htake, hlen, hget⟩ := pending_ok (hinv.2 hact).1
  exact ⟨pend, _, hlen, hget, h64Update_active hact htake, rfl, hact, rfl, rfl, rfl, rfl,
    absorbed_memsize s.ctx pend s.cmd.data, fun _ hk => absorbed_get hk⟩

/-- Settles O50: outside ACTIVE the command raises STATE; in ACTIVE the pending bytes have been written, and the tail runs
over them. -/
theorem h64FinalReturnsTheHash : Obligations.H64FinalReturnsTheHash := by
  refine ⟨MixingFamily.encodedBy_fixed rfl rfl rfl, fun s hinv => ⟨fun hina => h64Final_inactive hina, fun hact => ?_⟩⟩
  obtain ⟨pend, htake, hlen, hget⟩ := pending_ok (hinv.2 hact).1
  exact ⟨pend, hlen, hget, h64Final_active hact htake⟩

/-- An empty chunk after the pending bytes, which fill no block: nothing is folded, and the bytes stored are those that
stand in MEM already (R152). -/
theorem absorbed_nil {c : Ctx} {pend : List Byte} (hwf : c.mem.wf = true)
    (htake : bufTake c.mem 0 c.memsize = .ok pend) : absorbed c pend [] = c := by
  obtain ⟨hlen, hget⟩ := get_of_bufTake htake
  have hlt : pend.length < 32 := hlen ▸ c.memsize.isLt
  have hblocks : pend.length / 32 = 0 := Nat.div_eq_of_lt hlt
  have hmem : c.mem.putAll 0 pend = c.mem := putAll_self hwf (hlen ▸ hget)
  have hsize : Fin.ofNat 32 (pend.length % 32) = c.memsize := Fin.ext (by simp [hlen])
  have htotal : c.totalLen + trunc64 0 = c.totalLen := BitVec.add_zero _
  have hlarge : (c.large || decide (32 ≤ pend.length)) = c.large := by simp [hlt]
  simp only [absorbed, List.append_nil, List.length_nil, hblocks, lanes64_zero, Nat.mul_zero, List.drop_zero, hmem, hsize,
    htotal, hlarge]

/-- Settles O49: the pending bytes have been written, and taking no byte after them changes nothing. -/
theorem emptyUpdateChangesNothing : Obligations.EmptyUpdateChangesNothing := by
  intro s hinv hact hdata
  obtain ⟨pend, htake, -⟩ := pending_ok (hinv.2 hact).1
  rw [h64Update_active hact htake, hdata, absorbed_nil hinv.1 htake]
  rfl

/-! ### What each command does to `ctx` -/

/-- H64_INIT has the one effect of R150. -/
theorem h64Init_eq_next {s t : State} (h : exec .h64Init s = .next t) :
    t.ctx = s.ctx.start Config.params s.cmd.seed := by
  cases h; rfl

/-- H64_UPDATE leaves `ctx` unchanged outside ACTIVE, and takes the chunk in it (R152, R155). -/
theorem h64Update_eq_next {s t : State} (h : exec .h64Update s = .next t) :
    (s.ctx.st ≠ .active ∧ t.ctx = s.ctx) ∨
      (s.ctx.st = .active ∧ ∃ pend, bufTake s.ctx.mem 0 s.ctx.memsize = .ok pend ∧
        t.ctx = absorbed s.ctx pend s.cmd.data) := by
  cases exec_effect h with
  | respond r _ hs => exact .inl ⟨(hs rfl).2, rfl⟩
  | update hact hc =>
    obtain ⟨pend, htake, rfl⟩ := update_eq_ok hc
    exact .inr ⟨hact, pend, htake, rfl⟩

/-- H64_FINAL leaves `ctx` unchanged outside ACTIVE, and changes STATE alone in it (R154, R155). -/
theorem h64Final_eq_next {s t : State} (h : exec .h64Final s = .next t) :
    (s.ctx.st ≠ .active ∧ t.ctx = s.ctx) ∨ (s.ctx.st = .active ∧ t.ctx = s.ctx.finish) := by
  cases exec_effect h with
  | respond r _ hs => exact .inl ⟨(hs rfl).2, rfl⟩
  | final hact _ => exact .inr ⟨hact, rfl⟩

/-- Outside ACTIVE every command but H64_INIT leaves `ctx` unchanged (R156). -/
theorem exec_ctx_of_inactive {i : Instr} {s t : State} (h : exec i s = .next t) (hi : i ≠ .h64Init)
    (hina : s.ctx.st ≠ .active) : t.ctx = s.ctx := by
  cases exec_effect h with
  | respond => rfl
  | init => exact absurd rfl hi
  | update hact => exact absurd hact hina
  | final hact => exact absurd hact hina

theorem streaming_eq_false {i : Instr} (h1 : i ≠ .h64Init) (h2 : i ≠ .h64Update) (h3 : i ≠ .h64Final) :
    i.streaming = false := by
  cases i with
  | h64Init => exact absurd rfl h1
  | h64Update => exact absurd rfl h2
  | h64Final => exact absurd rfl h3
  | _ => rfl

/-- The transitions of R156, for a command that has been decoded. -/
theorem exec_transitions {i : Instr} {s t : State} (h : exec i s = .next t) :
    (i = .h64Init → t.ctx.st = .active) ∧
    (i = .h64Update → s.ctx.st = .active → t.ctx.st = .active) ∧
    (i = .h64Final → s.ctx.st = .active → t.ctx.st = .done) ∧
    (i ≠ .h64Init → s.ctx.st ≠ .active → t.ctx = s.ctx) ∧
    (i ≠ .h64Init → i ≠ .h64Update → i ≠ .h64Final → t.ctx = s.ctx) := by
  refine ⟨?_, ?_, ?_, exec_ctx_of_inactive h, fun h1 h2 h3 =>
    StateFamily.effect_ctx_of_not_streaming (exec_effect h) (streaming_eq_false h1 h2 h3)⟩
  · rintro rfl
    rw [h64Init_eq_next h, start_st]
  · rintro rfl hact
    obtain ⟨hina, -⟩ | ⟨-, pend, -, hctx⟩ := h64Update_eq_next h
    · exact absurd hact hina
    · rw [hctx]; exact hact
  · rintro rfl hact
    obtain ⟨hina, -⟩ | ⟨-, hctx⟩ := h64Final_eq_next h
    · exact absurd hact hina
    · rw [hctx, finish_st]

/-- Settles O14: a word that decodes makes the transitions of its command, any other word makes none. -/
theorem streamTransitions : Obligations.StreamTransitions := by
  intro s t c rest hp hstep
  obtain ⟨hnil, -⟩ | ⟨c', rest', hp', -, hrun⟩ := step_eq_next hstep
  · rw [hnil] at hp; cases hp
  · rw [hp'] at hp
    cases hp
    obtain ⟨i, hd, hex⟩ | ⟨e, hd, rfl⟩ := hrun
    · simpa only [hd, ne_eq, Except.ok.injEq, capture_ctx] using exec_transitions hex
    · simp [hd]

/-- H64_UPDATE stores to the offsets below its new MEMSIZE alone (R47, R152). -/
theorem absorbed_get_above {c : Ctx} {pend chunk : List Byte} {off : Nat} (hlen : pend.length = c.memsize.val)
    (hoff : (c.memsize.val + chunk.length) % 32 ≤ off) : (absorbed c pend chunk).mem.get off = c.mem.get off :=
  MemoryFamily.get_putAll_outside _ (.inr (by rwa [length_drop_blocks, List.length_append, hlen, Nat.zero_add]))

/-- Settles O17: every command responds and sets `ctx` alone, and each of the three sets it to what its rule says. -/
theorem streamFrame : Obligations.StreamFrame := by
  intro i s t _ hex
  obtain ⟨r, -, ht⟩ := StateFamily.effect_setCtx_respond (exec_effect hex)
  refine ⟨by rw [ht]; rfl, by rw [ht]; rfl, ⟨r, by rw [ht]; rfl⟩, ?_, ?_, ?_⟩
  · rintro rfl off
    rw [h64Init_eq_next hex, start_mem]
  · rintro rfl
    refine ⟨exec_ctx_of_inactive hex (by decide), ?_⟩
    obtain ⟨-, hctx⟩ | ⟨-, pend, htake, hctx⟩ := h64Update_eq_next hex <;> rw [hctx]
    · exact ⟨rfl, rfl, fun _ _ => rfl⟩
    · exact ⟨rfl, rfl, fun _ => absorbed_get_above (get_of_bufTake htake).1⟩
  · rintro rfl
    refine ⟨exec_ctx_of_inactive hex (by decide), ?_⟩
    obtain ⟨-, hctx⟩ | ⟨-, hctx⟩ := h64Final_eq_next hex <;> rw [hctx]
    · exact ⟨rfl, rfl, rfl, rfl, rfl, fun _ => rfl⟩
    · exact ⟨rfl, rfl, rfl, rfl, rfl, fun _ => rfl⟩

/-! ### A context that has taken the bytes `B` -/

/-- The bytes of `B` after its last full block. -/
def afterBlocks (B : List Byte) : List Byte := B.drop (32 * (B.length / 32))

theorem afterBlocks_length (B : List Byte) : (afterBlocks B).length = B.length % 32 := length_drop_blocks B

/-- Bytes that stand at the start of BUF are the ones taken from it. -/
theorem bufTake_of_get {m : Memory} {bs : List Byte} (hl : bs.length ≤ Config.bufSize)
    (hg : ∀ k < bs.length, m.get k = bs[k]?) : bufTake m 0 bs.length = .ok bs := by
  have hcongr : bufTake m 0 bs.length = bufTake (m.putAll 0 bs) 0 bs.length := bufTake_congr fun k hk => by
    rw [get_putAll, if_pos ⟨by omega, by omega⟩, Nat.zero_add, Nat.sub_zero, hg k hk]
  rw [hcongr, bufTake_putAll (by omega)]

section
variable {c : Ctx} {B : List Byte} {seed : U64}

/-- The pending bytes of a context that has taken `B` are those after the last full block of `B`. -/
theorem holds_bufTake (h : c.Holds B seed) : bufTake c.mem 0 c.memsize = .ok (afterBlocks B) := by
  have hl := afterBlocks_length B
  rw [h.size, ← hl]
  refine bufTake_of_get (by rw [hl, Config.bufSize]; omega) fun k hk => ?_
  rw [h.pend k (hl ▸ hk), afterBlocks, List.getElem?_drop]

theorem start_holds (c : Ctx) (seed : U64) : (c.start Config.params seed).Holds [] seed where
  active := rfl
  lanes := lanes64Init_eq seed
  size := rfl
  pend := by simp
  total := rfl
  flag := rfl
  seed := rfl

/-- The bytes after the last full block of `B`, with the chunk behind them, are a part of `B ++ chunk`. -/
theorem drop_append_chunk (B chunk : List Byte) :
    (B ++ chunk).drop (32 * (B.length / 32)) = afterBlocks B ++ chunk :=
  List.drop_append_of_le_length (by omega)

/-- Folding the blocks of `B`, then those of the bytes after them with the chunk behind them, is folding those of
`B ++ chunk` (R157). -/
theorem lanes64_append_chunk (B chunk : List Byte) (v : Lanes64) :
    Spec.lanes64 (afterBlocks B ++ chunk) ((afterBlocks B ++ chunk).length / 32) (Spec.lanes64 B (B.length / 32) v) =
      Spec.lanes64 (B ++ chunk) ((B ++ chunk).length / 32) v := by
  have hcount : (B ++ chunk).length / 32 = B.length / 32 + (afterBlocks B ++ chunk).length / 32 := by
    rw [List.length_append, List.length_append, afterBlocks_length]
    omega
  rw [hcount, lanes64_add, drop_append_chunk, lanes64_append B chunk _ _ (by omega)]

/-- H64_UPDATE takes the chunk: the context that has taken `B` goes on to one that has taken `B ++ chunk` (R157). -/
theorem absorbed_holds (h : c.Holds B seed) (chunk : List Byte) :
    (absorbed c (afterBlocks B) chunk).Holds (B ++ chunk) seed := by
  have hW : (afterBlocks B ++ chunk).length = B.length % 32 + chunk.length := by
    rw [List.length_append, afterBlocks_length]
  have hBC : (B ++ chunk).length = B.length + chunk.length := List.length_append
  have hmod : (afterBlocks B ++ chunk).length % 32 = (B ++ chunk).length % 32 := by omega
  refine ⟨h.active, ?_, (absorbed_memsize ..).trans hmod, fun k hk => ?_, ?_, ?_, h.seed⟩
  · rw [← lanes64_append_chunk, ← h.lanes]
    rfl
  · rw [absorbed_get (hmod ▸ hk), ← drop_append_chunk, List.getElem?_drop, drop_append_chunk]
    congr 1
    omega
  · rw [hBC, BitVec.ofNat_add, ← h.total]
    rfl
  · change (c.large || decide (32 ≤ (afterBlocks B ++ chunk).length)) = _
    rw [h.flag, ← Bool.decide_or]
    exact decide_eq_decide.mpr (by omega)

/-- What H64_FINAL computes from a context that has taken `B` is the 64-bit hash of `B` (R157). -/
theorem holds_hash64 (h : c.Holds B seed) :
    Spec.tail64 ((if c.large = true then Spec.converge64 c.v else c.seed + 2870177450012600261) + c.totalLen)
      (afterBlocks B) = Spec.hash64 B seed := by
  rw [h.flag, h.lanes, h.seed, h.total, Spec.hash64, afterBlocks]
  by_cases hl : B.length < 32
  · rw [if_neg (by simpa using hl), if_pos hl]
  · rw [if_pos (by simpa using hl), if_neg hl]

end

/-! ### Runs of a stream -/

/-- H64_INIT starts a stream that has taken no byte. -/
theorem step_init_holds {s : State} {seed : U64} {rest : List Command}
    (hp : s.pending = commandOf .h64Init seed 0 0 [] :: rest) :
    ∃ t, step s = .next t ∧ t.pending = rest ∧ t.responses = s.responses ++ [⟨0, 0, 0⟩] ∧ t.ctx.Holds [] seed := by
  rw [step_commandOf hp rfl (by simp)]
  exact ⟨_, exec_h64Init _, rfl, rfl, start_holds s.ctx seed⟩

/-- One H64_UPDATE in a stream that has taken `B`. -/
theorem step_update_holds {s : State} {B chunk : List Byte} {seed : U64} {rest : List Command}
    (hp : s.pending = commandOf .h64Update 0 0 0 chunk :: rest) (hl : chunk.length < 2 ^ 64)
    (h : s.ctx.Holds B seed) :
    ∃ t, step s = .next t ∧ t.pending = rest ∧ t.responses = s.responses ++ [⟨0, 0, 0⟩] ∧
      t.ctx.Holds (B ++ chunk) seed := by
  rw [step_commandOf hp rfl hl]
  exact ⟨_, h64Update_active (s := s.capture _ rest) h.active (holds_bufTake h), rfl, rfl, absorbed_holds h chunk⟩

/-- One H64_UPDATE for each chunk, in a stream that has taken `B`. -/
theorem run_updates {seed : U64} {rest : List Command} (chunks : List (List Byte)) {B : List Byte} {s : State}
    (hp : s.pending = chunks.map (commandOf .h64Update 0 0 0) ++ rest) (hl : chunks.flatten.length < 2 ^ 64)
    (h : s.ctx.Holds B seed) :
    ∃ t : State, Host.Core.run core chunks.length s = .next t ∧ t.pending = rest ∧
      t.responses = s.responses ++ List.replicate chunks.length ⟨0, 0, 0⟩ ∧
        t.ctx.Holds (B ++ chunks.flatten) seed := by
  induction chunks generalizing B s with
  | nil => exact ⟨s, rfl, hp, (List.append_nil _).symm, by simpa using h⟩
  | cons chunk chunks ih =>
    rw [List.flatten_cons, List.length_append] at hl
    obtain ⟨u, hu, hup, hur, huh⟩ := step_update_holds hp (by omega) h
    obtain ⟨t, ht, htp, htr, hth⟩ := ih hup (by omega) huh
    refine ⟨t, (run_next (M := core) chunks.length hu).trans ht, htp, ?_, ?_⟩
    · rw [htr, hur, List.append_assoc]
      rfl
    · rwa [List.flatten_cons, ← List.append_assoc]

/-- H64_INIT and one H64_UPDATE for each chunk, from any state. -/
theorem run_streamOf {s : State} {seed : U64} {chunks : List (List Byte)} {rest : List Command}
    (hl : chunks.flatten.length < 2 ^ 64) (hp : s.pending = streamOf seed chunks ++ rest) :
    ∃ t : State, Host.Core.run core (chunks.length + 1) s = .next t ∧ t.pending = rest ∧
      t.responses = s.responses ++ List.replicate (chunks.length + 1) ⟨0, 0, 0⟩ ∧
        t.ctx.Holds chunks.flatten seed := by
  obtain ⟨u, hu, hup, hur, huh⟩ := step_init_holds hp
  obtain ⟨t, ht, htp, htr, hth⟩ := run_updates chunks hup hl huh
  refine ⟨t, (run_next (M := core) chunks.length hu).trans ht, htp, ?_, hth⟩
  rw [htr, hur, List.append_assoc]
  rfl

/-- H64_FINAL in a stream that has taken `B` answers the 64-bit hash of `B`. -/
theorem step_final_holds {s : State} {B : List Byte} {seed : U64} {rest : List Command}
    (hp : s.pending = commandOf .h64Final 0 0 0 [] :: rest) (h : s.ctx.Holds B seed) :
    ∃ t, step s = .next t ∧ t.pending = rest ∧ t.ctx.st = .done ∧
      t.responses = s.responses ++ [⟨0, Spec.hash64 B seed, 0⟩] := by
  rw [step_commandOf hp rfl (by simp), h64Final_active (s := s.capture _ rest) h.active (holds_bufTake h),
    ← holds_hash64 h]
  exact ⟨_, rfl, rfl, rfl, rfl⟩

/-- HASH64 of `B`, from any state. -/
theorem step_hash64 {s : State} {B : List Byte} {seed : U64} {rest : List Command}
    (hp : s.pending = commandOf .hash64 seed 0 0 B :: rest) (hl : B.length < 2 ^ 64) :
    step s = .next ((s.capture (commandOf .hash64 seed 0 0 B) rest).respond ⟨0, Spec.hash64 B seed, 0⟩) :=
  (step_commandOf hp rfl hl).trans (exec_hash64 _)

/-- Settles O51: each H64_UPDATE goes on from the bytes taken so far to those and its chunk. -/
theorem streamContextAfterChunks : Obligations.StreamContextAfterChunks := by
  intro s seed chunks rest hl hp
  obtain ⟨t, ht, htp, -, hth⟩ := run_streamOf hl hp
  exact ⟨t, ht, htp, hth⟩

/-- Settles O52: H64_FINAL answers the hash of the bytes the context has taken, which are the chunks joined. -/
theorem chunkInvariance : Obligations.ChunkInvariance := by
  intro s seed chunks rest hl hp
  obtain ⟨t, ht, htp, htr, hth⟩ := run_streamOf hl hp
  obtain ⟨u, hu, hup, hud, hur⟩ := step_final_holds htp hth
  have hv := step_hash64 hup hl
  refine ⟨_, (run_add 2 ht).trans ((run_next (M := core) 1 hu).trans (run_next (M := core) 0 hv)), rfl, hud, ?_⟩
  rw [respond_responses, capture_responses, hur, htr, List.append_assoc]
  rfl

end Sys2Proof.Hash64Family
end

section
/-! SUPPORT. The statements of the family 43_xxhash3_128_dispatcher: what HASH128 answers in each length class, and which of
the parameters the answer depends on (spec/43_xxhash3_128_dispatcher.md R170 to R180, spec/90_conflicts.md C2). -/

namespace Sys2Proof.Hash128Family

open Machine Laws
open Config (Params FoldMode)

/-! ### The length classes (R170) -/

/-- The hash a length class gives. -/
def classHash (P : Params) (B : List Byte) (s : U64) : LenClass → Except Fault (U64 × U64)
  | .c0 => hash128C0 P s
  | .c1to3 => hash128C1to3 P B s
  | .c4to8 => hash128C4to8 P B s
  | .c9to16 => hash128C9to16 P B s
  | .c17to128 => hash128C17to128 P B s
  | .c129to240 => hash128C129to240 P B s
  | .c241 => hash128C241 P B s

/-- The lengths of a class. -/
def Covers : LenClass → Nat → Prop
  | .c0, n => n = 0
  | .c1to3, n => 1 ≤ n ∧ n ≤ 3
  | .c4to8, n => 4 ≤ n ∧ n ≤ 8
  | .c9to16, n => 9 ≤ n ∧ n ≤ 16
  | .c17to128, n => 17 ≤ n ∧ n ≤ 128
  | .c129to240, n => 129 ≤ n ∧ n ≤ 240
  | .c241, n => 241 ≤ n

theorem hash128_eq_classHash (P : Params) (B : List Byte) (s : U64) :
    hash128 P B s = classHash P B s (lenClass B.length) := by
  unfold hash128
  cases lenClass B.length <;> rfl

/-- The ordered chain of `lenclass(n)` picks the one class whose bounds hold of `n`: each test adds its bound to those that
have failed. -/
theorem lenClass_eq_iff (n : Nat) (c : LenClass) : lenClass n = c ↔ Covers c n := by
  unfold lenClass
  split_ifs <;> cases c <;> simp only [Covers, reduceCtorEq, true_iff, false_iff] <;> omega

/-- Every length is in its class. -/
theorem covers_lenClass (n : Nat) : Covers (lenClass n) n := (lenClass_eq_iff n _).mp rfl

/-! ### The command (R171 to R179) -/

/-- HASH128 completes with the pair that the class of its DATA gives. -/
theorem exec_hash128_of_class {s : State} {r : U64 × U64} (c : LenClass) (hc : Covers c s.cmd.data.length)
    (hr : classHash Config.params s.cmd.data s.cmd.seed c = .ok r) :
    exec .hash128 s = .next (s.respond ⟨0, r.1, r.2⟩) := by
  have h : hash128 Config.params s.cmd.data s.cmd.seed = .ok r := by
    rw [hash128_eq_classHash, (lenClass_eq_iff _ c).mpr hc, hr]
  exact congrArg s.complete h

/-- Settles O38: the packed word and the two table words are read in bounds. -/
theorem hash128Of1To3 : Obligations.Hash128Of1To3 := fun _ h1 h3 =>
  exec_hash128_of_class .c1to3 ⟨h1, h3⟩ (OneShot.hash128C1to3_ok _ h1 h3)

/-- Settles O39: the first and the last four bytes lie in DATA. -/
theorem hash128Of4To8 : Obligations.Hash128Of4To8 := fun _ h4 h8 =>
  exec_hash128_of_class .c4to8 ⟨h4, h8⟩ (OneShot.hash128C4to8_ok _ h4)

/-- Settles O40: the first and the last eight bytes lie in DATA. -/
theorem hash128Of9To16 : Obligations.Hash128Of9To16 := fun _ h9 h16 =>
  exec_hash128_of_class .c9to16 ⟨h9, h16⟩ (OneShot.hash128C9to16_ok _ (by omega))

/-- Settles O41: of the four tiers the first `(n + 31) / 32` run. -/
theorem hash128Of17To128 : Obligations.Hash128Of17To128 := fun _ h17 h128 =>
  exec_hash128_of_class .c17to128 ⟨h17, h128⟩ (OneShot.hash128C17to128_ok _ h17 h128)

/-- Settles O42: the mixer calls of both accumulators are sums. -/
theorem hash128Of129To240 : Obligations.Hash128Of129To240 := fun _ h129 h240 =>
  exec_hash128_of_class .c129to240 ⟨h129, h240⟩ (OneShot.hash128C129to240_ok _ h129 h240)

/-- Settles O43: the stripes of both accumulators are sums. -/
theorem hash128OfLongInput : Obligations.Hash128OfLongInput := fun _ h =>
  exec_hash128_of_class .c241 h (OneShot.hash128C241_ok _ (by omega))

/-- Settles O37: no byte of DATA is read. -/
theorem hash128OfNothing : Obligations.Hash128OfNothing := fun _ h =>
  exec_hash128_of_class .c0 (List.length_eq_zero_iff.mpr h) (OneShot.hash128C0_ok _)

/-- HASH128 completes for every DATA and seed (R179). -/
theorem exec_hash128 (s : State) : exec .hash128 s = .next (s.respond
    ⟨0, (Spec.hash128 s.cmd.data s.cmd.seed).1, (Spec.hash128 s.cmd.data s.cmd.seed).2⟩) :=
  congrArg s.complete (OneShot.hash128_ok s.cmd.data s.cmd.seed)

/-- Settles O44: opcode 0x03 reads neither R nor K, and every class answers the pair of its rule. -/
theorem hash128Command : Obligations.Hash128Command :=
  ⟨MixingFamily.encodedBy_fixed rfl rfl rfl, exec_hash128⟩

/-! ### FOLD_MODE (C2) -/

/-- The classes that call `mul128Fold64` lie between 9 and 240 bytes; the others read P64_1 and the secret table, and no
FOLD_MODE. -/
theorem classHash_foldMode (P : Params) (m : FoldMode) {B : List Byte} (s : U64) {c : LenClass} (hc : Covers c B.length)
    (hlen : B.length ≤ 8 ∨ 241 ≤ B.length) :
    classHash { P with foldMode := m } B s c = classHash P B s c := by
  cases c with
  | c0 => rfl
  | c1to3 => rfl
  | c4to8 => rfl
  | c9to16 => obtain ⟨h9, h16⟩ := hc; omega
  | c17to128 => obtain ⟨h17, h128⟩ := hc; omega
  | c129to240 => obtain ⟨h129, h240⟩ := hc; omega
  | c241 => rfl

/-- Settles O46: the length decides the class, and the class of such a length does not fold. -/
theorem foldModeMattersOnlyBetween9And240 : Obligations.FoldModeMattersOnlyBetween9And240 := by
  intro P m B s hlen
  rw [hash128_eq_classHash, hash128_eq_classHash]
  exact classHash_foldMode P m s (covers_lenClass B.length) hlen

/-! ### The secret table (R180) -/

/-- Two parameter values that differ at most in secret bytes at index 135 and above. -/
structure AgreeBelow135 (P Q : Params) : Prop where
  prime : P.prime64_1 = Q.prime64_1
  fold : P.foldMode = Q.foldMode
  size : P.secret.length = Q.secret.length
  table : P.secret.take 135 = Q.secret.take 135

/-- A loop depends on its body only at the entries of its list. -/
theorem foldlM_congr {σ : Type} {f g : σ → Nat → Except Fault σ} {l : List Nat} (h : ∀ acc, ∀ t ∈ l, f acc t = g acc t)
    (acc : σ) : l.foldlM f acc = l.foldlM g acc := by
  induction l generalizing acc with
  | nil => rfl
  | cons t l ih =>
    rw [List.foldlM_cons, List.foldlM_cons, h acc t (by simp)]
    exact congrArg _ (funext fun a => ih (fun acc t ht => h acc t (by simp [ht])) a)

section
variable {P Q : Params} (h : AgreeBelow135 P Q)
include h

/-- Reads that end below index 135 see the same bytes. -/
theorem readBytes_secret {i w : Nat} (hi : i + w ≤ 135) : readBytes .sec P.secret i w = readBytes .sec Q.secret i w := by
  have part : ∀ S : List Byte, ((S.take 135).drop i).take w = (S.drop i).take w := fun S => by
    rw [List.drop_take, List.take_take, Nat.min_eq_left (by omega)]
  rw [readBytes, readBytes, h.size, ← part P.secret, ← part Q.secret, h.table]

theorem k32_congr {i : Nat} (hi : i + 4 ≤ 135) : k32 P i = k32 Q i := by
  simp only [k32, le32, memRead, readBytes_secret h hi]

theorem k64_congr {i : Nat} (hi : i + 8 ≤ 135) : k64 P i = k64 Q i := by
  simp only [k64, le64, memRead, readBytes_secret h hi]

theorem mul128Fold64_congr (a b : U64) : mul128Fold64 P a b = mul128Fold64 Q a b := by
  rw [mul128Fold64, mul128Fold64, h.fold]

/-- The mixer reads 16 secret bytes (R88); the highest offset of a call is 119 (R176). -/
theorem mixAt_congr (B : List Byte) (s : U64) (p : Nat) {so : Nat} (hs : so ≤ 119) :
    mixAt P B s p so = mixAt Q B s p so := by
  have lower : k64 P so = k64 Q so := k64_congr h (by omega)
  have upper : k64 P (so + 8) = k64 Q (so + 8) := k64_congr h (by omega)
  simp only [mixAt, mix16B, lower, upper, mul128Fold64_congr h]

theorem addMix_congr (B : List Byte) (s acc : U64) (p : Nat) {so : Nat} (hs : so ≤ 119) :
    addMix P B s acc p so = addMix Q B s acc p so := by
  rw [addMix, addMix, mixAt_congr h B s p hs]

theorem hash128C0_congr (s : U64) : hash128C0 P s = hash128C0 Q s := by
  rw [hash128C0, hash128C0, k64_congr h (by omega), k64_congr h (by omega), k64_congr h (by omega),
    k64_congr h (by omega)]

theorem hash128C1to3_congr (B : List Byte) (s : U64) : hash128C1to3 P B s = hash128C1to3 Q B s := by
  rw [hash128C1to3, hash128C1to3, k32_congr h (by omega), k32_congr h (by omega)]

theorem hash128C4to8_congr (B : List Byte) (s : U64) : hash128C4to8 P B s = hash128C4to8 Q B s := by
  rw [hash128C4to8, hash128C4to8, k64_congr h (by omega), k64_congr h (by omega), k64_congr h (by omega),
    k64_congr h (by omega)]

theorem hash128C9to16_congr (B : List Byte) (s : U64) : hash128C9to16 P B s = hash128C9to16 Q B s := by
  simp only [hash128C9to16, mul128Fold64_congr h]
  rw [k64_congr h (by omega), k64_congr h (by omega), k64_congr h (by omega), k64_congr h (by omega)]

/-- The last tier reads up to index 127 (R175). -/
theorem tier17to128_congr (B : List Byte) (s : U64) (acc : U64 × U64) {t : Nat} (ht : t < 4) :
    tier17to128 P B s acc t = tier17to128 Q B s acc t := by
  have first (p : Nat) : mixAt P B s p (32 * t) = mixAt Q B s p (32 * t) := mixAt_congr h B s p (by omega)
  have second (p : Nat) : mixAt P B s p (32 * t + 16) = mixAt Q B s p (32 * t + 16) := mixAt_congr h B s p (by omega)
  simp only [tier17to128, first, second]

theorem hash128C17to128_congr (B : List Byte) (s : U64) : hash128C17to128 P B s = hash128C17to128 Q B s := by
  rw [hash128C17to128, hash128C17to128, h.prime,
    foldlM_congr fun acc _ ht => tier17to128_congr h B s acc (List.mem_range.mp ht)]

/-- The last call reads the 16 bytes from 119 on, the highest that HASH128 reads (R176, R180). -/
theorem hash128C129to240_congr {B : List Byte} (s : U64) (h240 : B.length ≤ 240) :
    hash128C129to240 P B s = hash128C129to240 Q B s := by
  have low : ∀ acc, ∀ i ∈ List.range 8, addMix P B s acc (16 * i) (16 * i) = addMix Q B s acc (16 * i) (16 * i) := by
    intro acc i hi
    have := List.mem_range.mp hi
    exact addMix_congr h B s acc _ (by omega)
  have high : ∀ acc, ∀ i ∈ List.range' 8 (B.length / 16 - 8),
      addMix P B s acc (16 * i) (16 * (i - 8) + 3) = addMix Q B s acc (16 * i) (16 * (i - 8) + 3) := by
    intro acc i hi
    have := List.mem_range'_1.mp hi
    exact addMix_congr h B s acc _ (by omega)
  have last (acc : U64) : addMix P B s acc (B.length - 16) 119 = addMix Q B s acc (B.length - 16) 119 :=
    addMix_congr h B s acc _ le_rfl
  simp only [hash128C129to240, h.prime, foldlM_congr low, foldlM_congr high, last]

theorem longStripe_congr (B : List Byte) (off : Nat) (pert : U64) (acc : U64 × U64) :
    longStripe P B off pert acc = longStripe Q B off pert acc := by
  refine foldlM_congr (fun acc j hj => ?_) acc
  have := List.mem_range.mp hj
  rw [longWord, longWord, k64_congr h (by omega)]

theorem hash128C241_congr (B : List Byte) (s : U64) : hash128C241 P B s = hash128C241 Q B s := by
  simp only [hash128C241, longRest, longStripe_congr h, h.prime]

theorem classHash_congr {B : List Byte} (s : U64) {c : LenClass} (hc : Covers c B.length) :
    classHash P B s c = classHash Q B s c := by
  cases c with
  | c0 => exact hash128C0_congr h s
  | c1to3 => exact hash128C1to3_congr h B s
  | c4to8 => exact hash128C4to8_congr h B s
  | c9to16 => exact hash128C9to16_congr h B s
  | c17to128 => exact hash128C17to128_congr h B s
  | c129to240 => exact hash128C129to240_congr h s hc.2
  | c241 => exact hash128C241_congr h B s

end

/-- Settles O45: in every class the last secret read ends at index 134 or below. -/
theorem hash128ReadsNoSecretAbove134 : Obligations.Hash128ReadsNoSecretAbove134 := by
  intro P Q B s hprime hfold hP hQ htable
  rw [hash128_eq_classHash, hash128_eq_classHash]
  exact classHash_congr ⟨hprime, hfold, hP.trans hQ.symm, htable⟩ s (covers_lenClass B.length)

end Sys2Proof.Hash128Family
end

section
/-! SUPPORT. The statements of the family 60_exceptions: the STATUS of every command, and the effect of a command that raises
an error (spec/60_exceptions.md R200 to R205). -/

namespace Sys2Proof.ExceptionFamily

open Machine Laws

/-! ### The STATUS of a word that decodes -/

/-- The STATUS of a decoded command in a stream state: STATE for the two commands that need ACTIVE, RANGE past a secret
limit (R202, R203). -/
def instrStatus (st : StreamState) : Instr → BitVec 8
  | .h64Update | .h64Final => if st ≠ .active then 2 else 0
  | .mix16b k => if 176 < k then 3 else 0
  | .secretRd32 k => if 188 < k then 3 else 0
  | .secretRd64 k => if 184 < k then 3 else 0
  | .hash32 | .hash64 | .hash128 | .h64Init | .rotl32 _ | .rotl64 _ | .bswap32 | .bswap64 | .aval64 | .aval3 | .rrmxmx
  | .mul128fold64 => 0

theorem statusOf_of_not_legalWord (st : StreamState) {w : U32} (h : ¬ legalWord w) : statusOf st w = 1 := if_pos h

/-- The checks of `statusOf` ask for the opcode and the field K of the command the word carries. -/
theorem statusOf_of_decodeWord_ok (st : StreamState) {w : U32} {i : Instr} (h : decodeWord w = .ok i) :
    statusOf st w = instrStatus st i := by
  have hlegal := EncodingFamily.legalWord_of_decodeWord_ok h
  obtain ⟨-, hopc, -, hk⟩ := EncodingFamily.carries_of_decodeWord h
  simp only [opcOf, kOf] at hopc hk
  rw [statusOf, if_neg (not_not.mpr hlegal), hopc]
  cases i with
  | mix16b k => rw [hk rfl]; simp [Instr.opcode, Instr.kField, instrStatus]
  | secretRd32 k => rw [hk rfl]; simp [Instr.opcode, Instr.kField, instrStatus]
  | secretRd64 k => rw [hk rfl]; simp [Instr.opcode, Instr.kField, instrStatus]
  | _ => simp [Instr.opcode, instrStatus]

/-! ### The STATUS a command answers -/

/-- A next state reached from `s` has one more response, with this STATUS. -/
def AnswersStatus (s : State) (code : BitVec 8) (o : Host.Outcome State Fault Refusal) : Prop :=
  ∀ t, o = .next t → ∃ r, t.responses = s.responses ++ [r] ∧ r.status = code

theorem respond_answersStatus (s : State) (r : Response) : AnswersStatus s r.status (.next (s.respond r)) := by
  rintro _ ⟨⟩
  exact ⟨r, rfl, rfl⟩

theorem complete_answersStatus (s : State) (x : Except Fault (U64 × U64)) : AnswersStatus s 0 (s.complete x) := by
  intro t ht
  obtain ⟨lo, hi, -, rfl⟩ := complete_eq_next ht
  exact ⟨_, rfl, rfl⟩

theorem complete64_answersStatus (s : State) (x : Except Fault U64) : AnswersStatus s 0 (s.complete64 x) :=
  complete_answersStatus s _

theorem complete32_answersStatus (s : State) (x : Except Fault U32) : AnswersStatus s 0 (s.complete32 x) :=
  complete64_answersStatus s _

/-- A command that first checks its secret offset (R203). -/
theorem ite_raise_range_answersStatus {s : State} {o : Host.Outcome State Fault Refusal} (p : Prop) [Decidable p]
    (h : AnswersStatus s 0 o) : AnswersStatus s (if p then 3 else 0) (if p then s.raise .range else o) := by
  split
  · exact respond_answersStatus s (.err .range)
  · exact h

/-- H64_UPDATE and H64_FINAL answer STATE outside ACTIVE and succeed in it (R202). -/
theorem streaming_answersStatus {i : Instr} (hi : i.streaming = true) (hinit : i ≠ .h64Init) (s : State) :
    AnswersStatus s (if s.ctx.st ≠ .active then 2 else 0) (exec i s) := by
  intro t ht
  cases exec_effect ht with
  | respond r _ hs =>
    obtain ⟨rfl, hina⟩ := hs hi
    exact ⟨_, rfl, (if_pos hina).symm⟩
  | init => exact absurd rfl hinit
  | update hact => exact ⟨_, rfl, (if_neg (not_not.mpr hact)).symm⟩
  | final hact => exact ⟨_, rfl, (if_neg (not_not.mpr hact)).symm⟩

theorem exec_answersStatus (i : Instr) (s : State) : AnswersStatus s (instrStatus s.ctx.st i) (exec i s) := by
  cases i with
  | hash32 => exact complete32_answersStatus s _
  | hash64 => exact complete64_answersStatus s _
  | hash128 => exact complete_answersStatus s _
  | h64Update | h64Final => exact streaming_answersStatus rfl (by decide) s
  | mix16b | secretRd64 => exact ite_raise_range_answersStatus _ (complete64_answersStatus s _)
  | secretRd32 => exact ite_raise_range_answersStatus _ (complete32_answersStatus s _)
  | h64Init =>
    rintro _ ⟨⟩
    exact ⟨⟨0, 0, 0⟩, rfl, rfl⟩
  | rotl32 | rotl64 | bswap32 | bswap64 | aval64 | aval3 | rrmxmx | mul128fold64 => exact respond_answersStatus s _

/-- The captured command is answered with the STATUS of its word: ILLEGAL before any other check (R205). -/
theorem runCaptured_status {s : State} (hs : s.ctx.Inv) :
    ∃ t r, runCaptured s = .next t ∧ t.responses = s.responses ++ [r] ∧ r.status = statusOf s.ctx.st s.cmd.word := by
  cases hd : decodeWord s.cmd.word with
  | error e =>
    have hw := EncodingFamily.not_legalWord_of_decodeWord_error hd
    exact ⟨_, _, EncodingFamily.runCaptured_of_decodeWord_error hd, rfl, (statusOf_of_not_legalWord _ hw).symm⟩
  | ok i =>
    obtain ⟨t, ht⟩ := ProgressFamily.exec_next hs i
    obtain ⟨r, hr, hstatus⟩ := exec_answersStatus i s t ht
    exact ⟨t, r, (EncodingFamily.runCaptured_of_decodeWord_ok hd).trans ht, hr,
      hstatus.trans (statusOf_of_decodeWord_ok _ hd).symm⟩

/-- Settles O12: the step runs the captured command, whose word decides the STATUS. -/
theorem statusOfEveryCommand : Obligations.StatusOfEveryCommand := by
  intro s c rest hs hp hl
  rw [step_captured hp hl]
  exact runCaptured_status (s := s.capture c rest) hs.1

/-! ### The effect of an error (R204) -/

theorem respond_new_eq {s : State} {q r : Response} (h : (s.respond q).responses = s.responses ++ [r]) : q = r :=
  List.singleton_inj.mp (List.append_cancel_left h)

/-- A command whose response is an error has no effect but the response: the other ways it can end answer STATUS 0. -/
theorem effect_of_error {i : Instr} {s t : State} {r : Response} (h : Effect i s t)
    (hr : t.responses = s.responses ++ [r]) (herr : r.status ≠ 0) : t = s.respond ⟨r.status, 0, 0⟩ := by
  cases h with
  | respond q hq =>
    obtain rfl := respond_new_eq hr
    obtain h0 | rfl | rfl := hq
    · exact absurd h0 herr
    · rfl
    · rfl
  | init | update | final => exact absurd (congrArg Response.status (respond_new_eq (s := s.setCtx _) hr)).symm herr

/-- Settles O13: the command has been captured, and it was illegal or raised an error of its own. -/
theorem errorHasNoEffect : Obligations.ErrorHasNoEffect := by
  intro s t c rest r hp hstep hr herr
  obtain ⟨hnil, -⟩ | ⟨c', rest', hp', -, hrun⟩ := step_eq_next hstep
  · rw [hnil] at hp; cases hp
  · rw [hp'] at hp
    cases hp
    obtain ⟨i, -, hex⟩ | ⟨e, -, rfl⟩ := hrun
    · exact effect_of_error (exec_effect hex) hr herr
    · obtain rfl := respond_new_eq (s := s.capture c rest) hr
      rfl

end Sys2Proof.ExceptionFamily
end

section
/-! SUPPORT. The statement of the family 70_reset_and_hazards: a reset while the block holds a state
(spec/70_reset_and_hazards.md R220, spec/10_state.md R34). -/

namespace Sys2Proof.ResetFamily

open Machine

/-! ### What a reset changes and what it leaves -/

@[simp] theorem resetBlock_ctx_st (s : State) : s.resetBlock.ctx.st = .idle := rfl
@[simp] theorem resetBlock_pending (s : State) : s.resetBlock.pending = s.pending := rfl
@[simp] theorem resetBlock_responses (s : State) : s.resetBlock.responses = s.responses := rfl

/-- Outside ACTIVE the STATE is all of the context that a command can see. -/
theorem ctx_same_of_not_active {c d : Ctx} (hst : c.st = d.st) (hina : c.st ≠ .active) : c.Same d :=
  ⟨hst, fun hact => absurd hact hina⟩

/-- A reset abandons the stream: whatever the fields of the stream held, the context is as after the first reset. -/
theorem resetBlock_ctx_same_reset (s : State) : s.resetBlock.ctx.Same State.reset.ctx :=
  ctx_same_of_not_active rfl (by simp)

/-- Settles O8: the context is IDLE, where no command sees another field, and the reset leaves the commands to come and
the responses. -/
theorem resetAbandonsTheStream : Obligations.ResetAbandonsTheStream := by
  intro s
  have hctx := resetBlock_ctx_same_reset s
  refine ⟨resetBlock_ctx_st s, hctx, resetBlock_responses s, resetBlock_pending s, fun t hpend hresp ht => ?_⟩
  exact ⟨(resetBlock_pending s).trans hpend.symm, (resetBlock_responses s).trans hresp.symm, ht ▸ hctx⟩

end Sys2Proof.ResetFamily
end
